-- ==== Sys2Proof/Word.lean ====
section
/-! DEFINITION. The word types of the CHIP-8 core: bytes, 16-bit instruction words and registers, 12-bit addresses, nibbles (R6, R9, R59). -/

namespace Sys2Proof

/-- A memory cell or a general register: 8 bits (R6, R15, R41). -/
abbrev Byte := BitVec 8

/-- An instruction word, I or pc: 16 bits (R6, R19, R21, R59). -/
abbrev Word := BitVec 16

/-- An NNN operand or a call-stack entry: 12 bits (R24, R60). -/
abbrev Addr := BitVec 12

/-- A 4-bit field of an instruction word; also the number of a general register (R15, R60). -/
abbrev Nibble := BitVec 4

end Sys2Proof
end

