-- ==== Sys2Proof/Syntax.lean ====
section
/-! DEFINITION. The 33 instructions of R67, one constructor per row of spec/opcode_table.json, in the table's order. -/

namespace Sys2Proof

/-- An instruction with its operands (R13, R60): `x`, `y` are register numbers, `nn` an immediate byte, `nnn` an
immediate address, `n` a row count. -/
inductive Instr where
  /-- 00E0 CLS (R104). -/
  | cls
  /-- 00EE RET (R77). -/
  | ret
  /-- 1NNN JP NNN (R78). -/
  | jp (nnn : Addr)
  /-- 2NNN CALL NNN (R79). -/
  | call (nnn : Addr)
  /-- 3XNN SE VX, NN (R80). -/
  | seImm (x : Nibble) (nn : Byte)
  /-- 4XNN SNE VX, NN (R81). -/
  | sneImm (x : Nibble) (nn : Byte)
  /-- 5XY0 SE VX, VY (R82). -/
  | seReg (x y : Nibble)
  /-- 6XNN LD VX, NN (R86). -/
  | ldImm (x : Nibble) (nn : Byte)
  /-- 7XNN ADD VX, NN (R87). -/
  | addImm (x : Nibble) (nn : Byte)
  /-- 8XY0 LD VX, VY (R88). -/
  | ldReg (x y : Nibble)
  /-- 8XY1 OR VX, VY (R89). -/
  | orReg (x y : Nibble)
  /-- 8XY2 AND VX, VY (R90). -/
  | andReg (x y : Nibble)
  /-- 8XY4 ADD VX, VY (R91). -/
  | addReg (x y : Nibble)
  /-- 8XY5 SUB VX, VY (R92). -/
  | sub (x y : Nibble)
  /-- 8XY6 SHR VX (R93); `y` is encoded and ignored (R73). -/
  | shr (x y : Nibble)
  /-- 8XY7 SUBN VX, VY (R94). -/
  | subn (x y : Nibble)
  /-- 8XYE SHL VX (R95); `y` is encoded and ignored (R73). -/
  | shl (x y : Nibble)
  /-- 9XY0 SNE VX, VY (R83). -/
  | sneReg (x y : Nibble)
  /-- ANNN LD I, NNN (R98). -/
  | ldI (nnn : Addr)
  /-- BNNN JP V0, NNN (R84). -/
  | jpV0 (nnn : Addr)
  /-- CXNN RND VX, NN (R96). -/
  | rnd (x : Nibble) (nn : Byte)
  /-- DXYN DRW VX, VY, N (R105); `n` is the number of rows. -/
  | drw (x y : Nibble) (n : Nat)
  /-- EX9E SKP VX (R112). -/
  | skp (x : Nibble)
  /-- EXA1 SKNP VX (R113). -/
  | sknp (x : Nibble)
  /-- FX07 LD VX, DT (R114). -/
  | ldVxDt (x : Nibble)
  /-- FX0A LD VX, K (R115). -/
  | ldVxK (x : Nibble)
  /-- FX15 LD DT, VX (R116). -/
  | ldDtVx (x : Nibble)
  /-- FX18 LD ST, VX (R117). -/
  | ldStVx (x : Nibble)
  /-- FX1E ADD I, VX (R99). -/
  | addI (x : Nibble)
  /-- FX29 LD F, VX (R100). -/
  | ldF (x : Nibble)
  /-- FX33 LD B, VX (R101). -/
  | ldB (x : Nibble)
  /-- FX55 LD [I], VX (R102). -/
  | storeRegs (x : Nibble)
  /-- FX65 LD VX, [I] (R103). -/
  | loadRegs (x : Nibble)
  deriving DecidableEq, Repr

end Sys2Proof
end

