-- ==== Sys2Proof/WellFormed.lean ====
section
/-! DEFINITION. Which instruction terms an instruction word can stand for. Register numbers, NN and NNN carry their width in their type; the row count of DXYN is a number and is checked here (R6, R60). -/

namespace Sys2Proof

/-- An instruction that has an encoding: the row count N of DXYN is a 4-bit count 0–15 (R6, R60, R105). -/
def Instr.wellFormed : Instr → Bool
  | .drw _ _ n => decide (n ≤ 15)
  | .cls | .ret | .jp _ | .call _ | .seImm _ _ | .sneImm _ _ | .seReg _ _ | .ldImm _ _ | .addImm _ _
  | .ldReg _ _ | .orReg _ _ | .andReg _ _ | .addReg _ _ | .sub _ _ | .shr _ _ | .subn _ _ | .shl _ _
  | .sneReg _ _ | .ldI _ | .jpV0 _ | .rnd _ _ | .skp _ | .sknp _ | .ldVxDt _ | .ldVxK _ | .ldDtVx _
  | .ldStVx _ | .addI _ | .ldF _ | .ldB _ | .storeRegs _ | .loadRegs _ => true

end Sys2Proof
end

