-- ==== Sys2Proof/Decode.lean ====
section
/-! DEFINITION. The decoder (R59–R63, R66–R73): total on every word, strict on every fixed bit, refusing by name; then the encoder and the opcode map of R67 as data. -/

namespace Sys2Proof

/-- Bits 15–12, the family (R59, R63). -/
def opFamily (op : Word) : Nibble := op.extractLsb' 12 4
/-- X = bits 11–8 (R13, R60). -/
def opX (op : Word) : Nibble := op.extractLsb' 8 4
/-- Y = bits 7–4 (R13, R60). -/
def opY (op : Word) : Nibble := op.extractLsb' 4 4
/-- N = bits 3–0 (R13, R60). -/
def opN (op : Word) : Nibble := op.extractLsb' 0 4
/-- NN = bits 7–0 (R13, R60). -/
def opNN (op : Word) : Byte := op.extractLsb' 0 8
/-- NNN = bits 11–0 (R13, R60). -/
def opNNN (op : Word) : Addr := op.extractLsb' 0 12

/-- Why a word is no instruction: the one decode failure of R66. -/
inductive DecodeReject where
  /-- The word matches no row of R67. Raised by `decode`; safe: the spec makes it the fault UnsupportedInstruction. -/
  | unsupportedInstruction (op : Word)
  deriving DecidableEq, Repr

/-- Family 0x0: exactly 0x00E0 and 0x00EE (R68, R69). -/
def decodeFamily0 (op : Word) : Except DecodeReject Instr :=
  match opNNN op with
  | 0x0E0#12 => .ok .cls
  | 0x0EE#12 => .ok .ret
  | _ => .error (.unsupportedInstruction op)

/-- Families 0x5 and 0x9 need N = 0 (R63, R68, C5). -/
def decodeRegPair (op : Word) (i : Instr) : Except DecodeReject Instr :=
  match opN op with
  | 0x0#4 => .ok i
  | _ => .error (.unsupportedInstruction op)

/-- Family 0x8 is selected by N; N = 3, 8–0xD and 0xF are unsupported (R63, R69). -/
def decodeFamily8 (op : Word) : Except DecodeReject Instr :=
  match opN op with
  | 0x0#4 => .ok (.ldReg (opX op) (opY op))
  | 0x1#4 => .ok (.orReg (opX op) (opY op))
  | 0x2#4 => .ok (.andReg (opX op) (opY op))
  | 0x4#4 => .ok (.addReg (opX op) (opY op))
  | 0x5#4 => .ok (.sub (opX op) (opY op))
  | 0x6#4 => .ok (.shr (opX op) (opY op))
  | 0x7#4 => .ok (.subn (opX op) (opY op))
  | 0xE#4 => .ok (.shl (opX op) (opY op))
  | _ => .error (.unsupportedInstruction op)

/-- Family 0xE is selected by NN (R63, R69). -/
def decodeFamilyE (op : Word) : Except DecodeReject Instr :=
  match opNN op with
  | 0x9E#8 => .ok (.skp (opX op))
  | 0xA1#8 => .ok (.sknp (opX op))
  | _ => .error (.unsupportedInstruction op)

/-- Family 0xF is selected by NN (R63, R69). -/
def decodeFamilyF (op : Word) : Except DecodeReject Instr :=
  match opNN op with
  | 0x07#8 => .ok (.ldVxDt (opX op))
  | 0x0A#8 => .ok (.ldVxK (opX op))
  | 0x15#8 => .ok (.ldDtVx (opX op))
  | 0x18#8 => .ok (.ldStVx (opX op))
  | 0x1E#8 => .ok (.addI (opX op))
  | 0x29#8 => .ok (.ldF (opX op))
  | 0x33#8 => .ok (.ldB (opX op))
  | 0x55#8 => .ok (.storeRegs (opX op))
  | 0x65#8 => .ok (.loadRegs (opX op))
  | _ => .error (.unsupportedInstruction op)

/-- Decode one instruction word (R63, R67): total, and strict on every fixed bit. -/
def decode (op : Word) : Except DecodeReject Instr :=
  match opFamily op with
  | 0x0#4 => decodeFamily0 op
  | 0x1#4 => .ok (.jp (opNNN op))
  | 0x2#4 => .ok (.call (opNNN op))
  | 0x3#4 => .ok (.seImm (opX op) (opNN op))
  | 0x4#4 => .ok (.sneImm (opX op) (opNN op))
  | 0x5#4 => decodeRegPair op (.seReg (opX op) (opY op))
  | 0x6#4 => .ok (.ldImm (opX op) (opNN op))
  | 0x7#4 => .ok (.addImm (opX op) (opNN op))
  | 0x8#4 => decodeFamily8 op
  | 0x9#4 => decodeRegPair op (.sneReg (opX op) (opY op))
  | 0xA#4 => .ok (.ldI (opNNN op))
  | 0xB#4 => .ok (.jpV0 (opNNN op))
  | 0xC#4 => .ok (.rnd (opX op) (opNN op))
  | 0xD#4 => .ok (.drw (opX op) (opY op) (opN op).toNat)
  | 0xE#4 => decodeFamilyE op
  | _ => decodeFamilyF op

/-- The word of two consecutive bytes, `first << 8 | second`: big-endian (R47, R59). -/
def wordOfBytes (first second : Byte) : Word := first.setWidth 16 <<< 8 ||| second.setWidth 16

/-- Decode an instruction from its two bytes in memory order (R47, R59). -/
def decodeBytes (first second : Byte) : Except DecodeReject Instr :=
  decode (wordOfBytes first second)

/-- The byte at the lower address of a word in memory (R47). -/
def firstByte (op : Word) : Byte := op.extractLsb' 8 8
/-- The byte at the higher address of a word in memory (R47). -/
def secondByte (op : Word) : Byte := op.extractLsb' 0 8

/-- The word of a row of spec/opcode_table.json with the bits `w`, every bit from `nbits` up being 0. -/
def tableWord (nbits w : Nat) : Word := BitVec.ofNat 16 (w % 2 ^ nbits)

/-- The instruction the decoder reads from the table's bits `w`, laid out as the hardware stores them: high byte first. -/
def decodeTableWord (nbits w : Nat) : Option Instr :=
  match decodeBytes (firstByte (tableWord nbits w)) (secondByte (tableWord nbits w)) with
  | .ok i => some i
  | .error _ => none

/-- The word with the fields family and NNN (R59, address view). -/
def encNNN (family : Nibble) (nnn : Addr) : Word := family.setWidth 16 <<< 12 ||| nnn.setWidth 16
/-- The word with the fields family, X and NN (R59, byte view). -/
def encXNN (family x : Nibble) (nn : Byte) : Word :=
  family.setWidth 16 <<< 12 ||| x.setWidth 16 <<< 8 ||| nn.setWidth 16
/-- The word with the fields family, X, Y and N (R59). -/
def encXYN (family x y n : Nibble) : Word :=
  family.setWidth 16 <<< 12 ||| x.setWidth 16 <<< 8 ||| y.setWidth 16 <<< 4 ||| n.setWidth 16

/-- The word of a well-formed instruction, from the encoding column of R67. -/
def encode : Instr → Word
  | .cls => encNNN 0x0 0x0E0
  | .ret => encNNN 0x0 0x0EE
  | .jp nnn => encNNN 0x1 nnn
  | .call nnn => encNNN 0x2 nnn
  | .seImm x nn => encXNN 0x3 x nn
  | .sneImm x nn => encXNN 0x4 x nn
  | .seReg x y => encXYN 0x5 x y 0x0
  | .ldImm x nn => encXNN 0x6 x nn
  | .addImm x nn => encXNN 0x7 x nn
  | .ldReg x y => encXYN 0x8 x y 0x0
  | .orReg x y => encXYN 0x8 x y 0x1
  | .andReg x y => encXYN 0x8 x y 0x2
  | .addReg x y => encXYN 0x8 x y 0x4
  | .sub x y => encXYN 0x8 x y 0x5
  | .shr x y => encXYN 0x8 x y 0x6
  | .subn x y => encXYN 0x8 x y 0x7
  | .shl x y => encXYN 0x8 x y 0xE
  | .sneReg x y => encXYN 0x9 x y 0x0
  | .ldI nnn => encNNN 0xA nnn
  | .jpV0 nnn => encNNN 0xB nnn
  | .rnd x nn => encXNN 0xC x nn
  | .drw x y n => encXYN 0xD x y (BitVec.ofNat 4 n)
  | .skp x => encXNN 0xE x 0x9E
  | .sknp x => encXNN 0xE x 0xA1
  | .ldVxDt x => encXNN 0xF x 0x07
  | .ldVxK x => encXNN 0xF x 0x0A
  | .ldDtVx x => encXNN 0xF x 0x15
  | .ldStVx x => encXNN 0xF x 0x18
  | .addI x => encXNN 0xF x 0x1E
  | .ldF x => encXNN 0xF x 0x29
  | .ldB x => encXNN 0xF x 0x33
  | .storeRegs x => encXNN 0xF x 0x55
  | .loadRegs x => encXNN 0xF x 0x65

/-- One row of R67: a word w is the instruction when `w &&& mask = bits`. -/
structure OpcodeRow where
  mnemonic : String
  bits : Word
  mask : Word
  deriving DecidableEq, Repr

/-- Rows 1–18 of R67: the match and mask columns. -/
def opcodeRowsLow : List OpcodeRow := [
  ⟨"CLS", 0x00E0, 0xFFFF⟩, ⟨"RET", 0x00EE, 0xFFFF⟩, ⟨"JP_NNN", 0x1000, 0xF000⟩,
  ⟨"CALL_NNN", 0x2000, 0xF000⟩, ⟨"SE_VX__NN", 0x3000, 0xF000⟩, ⟨"SNE_VX__NN", 0x4000, 0xF000⟩,
  ⟨"SE_VX__VY", 0x5000, 0xF00F⟩, ⟨"LD_VX__NN", 0x6000, 0xF000⟩, ⟨"ADD_VX__NN", 0x7000, 0xF000⟩,
  ⟨"LD_VX__VY", 0x8000, 0xF00F⟩, ⟨"OR_VX__VY", 0x8001, 0xF00F⟩, ⟨"AND_VX__VY", 0x8002, 0xF00F⟩,
  ⟨"ADD_VX__VY", 0x8004, 0xF00F⟩, ⟨"SUB_VX__VY", 0x8005, 0xF00F⟩, ⟨"SHR_VX____VY", 0x8006, 0xF00F⟩,
  ⟨"SUBN_VX__VY", 0x8007, 0xF00F⟩, ⟨"SHL_VX____VY", 0x800E, 0xF00F⟩, ⟨"SNE_VX__VY", 0x9000, 0xF00F⟩]

/-- Rows 19–33 of R67. -/
def opcodeRowsHigh : List OpcodeRow := [
  ⟨"LD_I__NNN", 0xA000, 0xF000⟩, ⟨"JP_V0__NNN", 0xB000, 0xF000⟩, ⟨"RND_VX__NN", 0xC000, 0xF000⟩,
  ⟨"DRW_VX__VY__N", 0xD000, 0xF000⟩, ⟨"SKP_VX", 0xE09E, 0xF0FF⟩, ⟨"SKNP_VX", 0xE0A1, 0xF0FF⟩,
  ⟨"LD_VX__DT", 0xF007, 0xF0FF⟩, ⟨"LD_VX__K", 0xF00A, 0xF0FF⟩, ⟨"LD_DT__VX", 0xF015, 0xF0FF⟩,
  ⟨"LD_ST__VX", 0xF018, 0xF0FF⟩, ⟨"ADD_I__VX", 0xF01E, 0xF0FF⟩, ⟨"LD_F__VX", 0xF029, 0xF0FF⟩,
  ⟨"LD_B__VX", 0xF033, 0xF0FF⟩, ⟨"LD__I___VX", 0xF055, 0xF0FF⟩, ⟨"LD_VX___I", 0xF065, 0xF0FF⟩]

/-- The opcode map of R67, row by row (the mnemonics as spec/opcode_table.json spells them). -/
def opcodeRows : List OpcodeRow := opcodeRowsLow ++ opcodeRowsHigh

/-- The mnemonic of an instruction's row in spec/opcode_table.json. -/
def Instr.mnemonic : Instr → String
  | .cls => "CLS"
  | .ret => "RET"
  | .jp _ => "JP_NNN"
  | .call _ => "CALL_NNN"
  | .seImm _ _ => "SE_VX__NN"
  | .sneImm _ _ => "SNE_VX__NN"
  | .seReg _ _ => "SE_VX__VY"
  | .ldImm _ _ => "LD_VX__NN"
  | .addImm _ _ => "ADD_VX__NN"
  | .ldReg _ _ => "LD_VX__VY"
  | .orReg _ _ => "OR_VX__VY"
  | .andReg _ _ => "AND_VX__VY"
  | .addReg _ _ => "ADD_VX__VY"
  | .sub _ _ => "SUB_VX__VY"
  | .shr _ _ => "SHR_VX____VY"
  | .subn _ _ => "SUBN_VX__VY"
  | .shl _ _ => "SHL_VX____VY"
  | .sneReg _ _ => "SNE_VX__VY"
  | .ldI _ => "LD_I__NNN"
  | .jpV0 _ => "JP_V0__NNN"
  | .rnd _ _ => "RND_VX__NN"
  | .drw _ _ _ => "DRW_VX__VY__N"
  | .skp _ => "SKP_VX"
  | .sknp _ => "SKNP_VX"
  | .ldVxDt _ => "LD_VX__DT"
  | .ldVxK _ => "LD_VX__K"
  | .ldDtVx _ => "LD_DT__VX"
  | .ldStVx _ => "LD_ST__VX"
  | .addI _ => "ADD_I__VX"
  | .ldF _ => "LD_F__VX"
  | .ldB _ => "LD_B__VX"
  | .storeRegs _ => "LD__I___VX"
  | .loadRegs _ => "LD_VX___I"

end Sys2Proof
end

