-- ==== Sys2Proof/Config.lean ====
section
/-! DEFINITION. What is fixed for the machine: the sizes and addresses of R6, the parameter FONT (R7), and the free values of the step's inputs (R8, R32). -/

namespace Sys2Proof

/-- The highest memory address, 0xFFF (R6, R41). -/
def Config.memTop : Nat := 0xFFF

/-- Where programs are loaded and where pc starts (R6, R44). -/
def Config.programBase : Nat := 0x200

/-- The longest program `loadProgram` accepts (R6, R137). -/
def Config.maxProgram : Nat := 3584

/-- The address of glyph 0 (R6, R43). -/
def Config.fontBase : Nat := 0x050

/-- The size of the font: 16 glyphs of 5 bytes (R6, R7). -/
def Config.fontSize : Nat := 80

/-- The parameter FONT of R7: byte j (0 ≤ j < 80) of the built-in glyph table. The spec gives no bytes, so this
constant has no body and every claim holds for every font. DESIGN CHOICE (form), log 1. -/
opaque Config.font : Nat → Byte

/-- Free value: the key snapshot the host supplies to a step for which the state scripts none (R32: any value). Log 3. -/
opaque Config.freeKeys : Nat → BitVec 16

/-- Free value: the random byte the host supplies to a step for which the state scripts none (R8: any value). Log 3. -/
opaque Config.freeRnd : Nat → Byte

end Sys2Proof
end

