-- ==== Sys2Proof/Machine/State.lean ====
section
/-! DEFINITION. The state of the CHIP-8 core as plain data (R40), the fatal errors (R119), the refusals (R132), and the state after reset (R39). -/

namespace Sys2Proof.Machine

/-- How a memory access that left the address space was made (R46). -/
inductive Access where
  | fetch | read | write
  deriving DecidableEq, Repr

/-- The fatal errors of R119 with the information each records. All are reported by the machine and safe: the spec
gives them. A step that meets one goes to the NEXT state `Halted(e)` (R121, log 4); the OUTCOME `fault e` is what every
later step of the halted machine answers (R122), and what `loadProgram` answers to a malformed ROM (R137). -/
inductive Fault where
  /-- Code 1: the fetched word matches no row of R67. Raised by the decode phase of a step (R66). Safe. -/
  | unsupportedInstruction (op pc : Word)
  /-- Code 2: raised by 2NNN when 16 return addresses are stored (R25, R79). Safe. -/
  | stackOverflow (pc : Word)
  /-- Code 3: raised by 00EE when the stack is empty (R26, R77). Safe. -/
  | stackUnderflow (pc : Word)
  /-- Code 4: raised by the fetch phase (R62) and by DXYN, FX33, FX55, FX65 (R97); `addr` is the first address out of
  range. Safe. -/
  | addressOutOfBounds (addr : Nat) (access : Access) (pc : Word)
  /-- Code 5: raised by EX9E and EXA1 when V[X] names no key (R111). Safe. -/
  | keyIndexOutOfRange (value : Byte) (pc : Word)
  /-- Code 6: answered by `loadProgram` to more than 3584 bytes, never by a step (R137). Safe. -/
  | malformedRom (length : Nat)
  deriving DecidableEq, Repr

/-- Actions the model does not admit (R65, R132), and instructions without a meaning. -/
inductive Refusal where
  /-- An instruction of the opcode table that has no meaning in this model yet. Raised by `exec`'s arms only; none is. Safe. -/
  | notModelled (mnemonic : String)
  /-- A step before the first `init()`: outside the host contract (R65, R132, R133). Raised by `step`. Safe. -/
  | stepBeforeInit
  /-- A step between `init()` and a successful `loadProgram` (R65, R132). Raised by `step`. Safe. -/
  | stepBeforeLoad
  /-- A `loadProgram` in any status but Init (R132, R137). Raised by `loadProgram`. Safe. -/
  | loadOutOfOrder
  deriving DecidableEq, Repr

/-- The lifecycle of the machine instance (R34). -/
inductive Status where
  /-- Before the first `init()`: R133 defines no other state here, the fields hold whatever they hold (log 21). -/
  | uninit
  /-- After `init()`, before `loadProgram`. -/
  | init
  /-- After `loadProgram`: steps are valid. -/
  | run
  /-- A fatal error ended an earlier step. -/
  | halted (e : Fault)
  deriving DecidableEq, Repr

/-- The inputs of one step: the key snapshot and the random byte (R32, R33). -/
structure StepInput where
  keys : BitVec 16
  rnd : Byte
  deriving DecidableEq, Repr

/-- Memory: (address, byte) pairs in the canonical form `Memory.wf`; what an unlisted address reads as is
`Memory.background` (R41, R43). -/
abbrev Memory := List Host.Cell

/-- The framebuffer: 32 rows of 64 one-bit pixels, row-major (R30); column x of a row is its bit x. -/
abbrev Display := Vector (BitVec 64) 32

/-- The whole state of R40, and the inputs of the steps to come (log 3). -/
structure State where
  /-- The 4096-byte memory (R41). -/
  mem : Memory
  /-- V0–VF (R15). -/
  v : Vector Byte 16
  /-- The address register I (R19). -/
  iReg : Word
  /-- The program counter (R21). -/
  pc : Word
  /-- The stack pointer: the number of entries in use, 0–16 (R24). -/
  sp : Fin 17
  /-- Stack[0..15] (R24). -/
  stack : Vector Addr 16
  /-- The delay timer (R28). -/
  dt : Byte
  /-- The sound timer (R29). -/
  st : Byte
  /-- The display buffer (R30). -/
  disp : Display
  /-- The redraw flag (R31). -/
  redraw : Bool
  /-- The lifecycle status (R34). -/
  status : Status
  /-- The key snapshot of the coming step: an input, not the spec's state (R32, log 3). -/
  keys : BitVec 16
  /-- The random byte of the coming step: an input, not the spec's state (R33, log 3). -/
  rnd : Byte
  /-- The inputs the host supplies to the steps after the coming one, the next first (log 3). -/
  pending : List StepInput
  /-- How many inputs were free values so far: the model's counter (log 3). -/
  inputCount : Nat
  deriving DecidableEq, Repr

/-- The machine right after `init()` (R39, R135): memory at its reset contents, registers, timers and display zero,
pc = 0x200, status Init. The values of `keys`, `rnd`, `pending` and `inputCount` are DESIGN CHOICE (log 3); those of V0–VF,
the stack entries, `redraw` and `status` are the spec's decisions D4 and D18 (log 2). -/
def State.reset : State where
  mem := []
  v := Vector.replicate 16 0
  iReg := 0
  pc := 0x200
  sp := 0
  stack := Vector.replicate 16 0
  dt := 0
  st := 0
  disp := Vector.replicate 32 0
  redraw := false
  status := .init
  keys := 0
  rnd := 0
  pending := []
  inputCount := 0

/-- The result of one meaning or one step. -/
abbrev Result := Host.Outcome State Fault Refusal

end Sys2Proof.Machine
end

