-- ==== Sys2Proof/Machine/Memory.lean ====
section
/-! DEFINITION. The named operations over memory: reset contents, canonical form, reading and writing bytes (R41, R43, R48, R50, R52). Bounds are checked by the callers before any of these runs (R51, Machine/Operands.lean). -/

namespace Sys2Proof.Machine

/-- What an address that memory does not list reads as: its reset contents, FONT at 0x050–0x09F and 0 elsewhere
(R39, R43, R136). -/
def Memory.background (a : Nat) : Byte :=
  if Config.fontBase ≤ a ∧ a < Config.fontBase + Config.fontSize then Config.font (a - Config.fontBase) else 0

/-- The canonical form: addresses strictly rising, no entry equal to what an unlisted address reads as. -/
def Memory.wf (m : Memory) : Bool :=
  decide (m.Pairwise fun c d => c.1 < d.1) && m.all fun c => c.2 != Memory.background c.1

/-- The byte at address `a` (R52). -/
def Memory.read : Memory → Nat → Byte
  | [], a => Memory.background a
  | c :: m, a => if c.1 = a then c.2 else Memory.read m a

/-- Forget what is listed for address `a`. -/
def Memory.erase (m : Memory) (a : Nat) : Memory := m.filter fun c => c.1 != a

/-- List byte `b` at address `a`, in address order. -/
def Memory.insert (a : Nat) (b : Byte) : Memory → Memory
  | [] => [(a, b)]
  | c :: m => if a < c.1 then (a, b) :: c :: m else c :: Memory.insert a b m

/-- Store byte `b` at address `a`, keeping the canonical form (R52: a write changes only the addressed byte). -/
def Memory.write (m : Memory) (a : Nat) (b : Byte) : Memory :=
  if b = Memory.background a then Memory.erase m a else Memory.insert a b (Memory.erase m a)

/-- The bytes at `a`, `a + 1`, …, ascending (R48, R50). -/
def Memory.readBytes (m : Memory) (a : Nat) : Nat → List Byte
  | 0 => []
  | n + 1 => Memory.read m a :: Memory.readBytes m (a + 1) n

/-- Store bytes at `a`, `a + 1`, …, ascending (R48, R50). -/
def Memory.writeBytes (m : Memory) (a : Nat) : List Byte → Memory
  | [] => m
  | b :: bs => Memory.writeBytes (Memory.write m a b) (a + 1) bs

end Sys2Proof.Machine
end

