-- ==== Sys2Proof/Machine/Ops.lean ====
section
/-! DEFINITION. The named operations every instruction shares: registers, pc, the call stack, raising a fatal error, and the phases of the step around execute: fetch, timer tick, taking the next input. -/

namespace Sys2Proof.Machine

/-- V[x] (R10, R15). -/
def State.reg (s : State) (x : Nibble) : Byte := s.v[x.toNat]'x.isLt

/-- V[x] <- b (R10, R15). -/
def State.setReg (s : State) (x : Nibble) (b : Byte) : State :=
  { s with v := s.v.set x.toNat b x.isLt }

/-- VF, the flag register (R16). -/
def vF : Nibble := 0xF

/-- I <- w (R10). -/
def State.setI (s : State) (w : Word) : State := { s with iReg := w }

/-- pc <- w (R10). -/
def State.setPc (s : State) (w : Word) : State := { s with pc := w }

/-- pc <- pc + 2, the update of every instruction that does not transfer control (R21, R22). -/
def State.advance (s : State) : State := s.setPc (s.pc + 2)

/-- pc <- pc + 4 or pc + 2, the update of a skip (R22, R76). -/
def State.skipIf (s : State) (taken : Bool) : State := s.setPc (if taken then s.pc + 4 else s.pc + 2)

/-- Memory with the given contents. -/
def State.setMem (s : State) (m : Memory) : State := { s with mem := m }

/-- Store `bs[k]` into V[k], V[k+1], …, in that order (R103). -/
def State.setRegsFrom (s : State) (k : Nat) : List Byte → State
  | [] => s
  | b :: bs => State.setRegsFrom (s.setReg (BitVec.ofNat 4 k) b) (k + 1) bs

/-- The first `n` registers V0, V1, …, in that order (R102). -/
def State.firstRegs (s : State) (n : Nat) : List Byte :=
  (List.range n).map fun k => s.reg (BitVec.ofNat 4 k)

/-- TAKING A FATAL ERROR, one operation for every fault of every phase: nothing of the step is committed, only `status`
changes, to Halted(e) (R61, R118, R121; log 4). There is no handler and no return from it (R118, R125); only `init()`
leaves Halted (R122). -/
def State.raise (s : State) (e : Fault) : Result := .next { s with status := .halted e }

/-- Push(v): none when 16 entries are in use (R25). -/
def State.push (s : State) (ret : Addr) : Option State :=
  if h : s.sp.val < 16 then
    some { s with stack := s.stack.set s.sp.val ret h, sp := ⟨s.sp.val + 1, Nat.succ_lt_succ h⟩ }
  else none

/-- Pop(): none when the stack is empty (R26); the popped entry keeps its value (R77). -/
def State.pop (s : State) : Option (Addr × State) :=
  if h : 0 < s.sp.val then
    some (s.stack[s.sp.val - 1]'(by have := s.sp.isLt; omega),
      { s with sp := ⟨s.sp.val - 1, by have := s.sp.isLt; omega⟩ })
  else none

/-- A 12-bit value widened with zeros (R9, R60). -/
def wordOfAddr (a : Addr) : Word := a.setWidth 16

/-- The instruction word at pc, big-endian (R47, R62). -/
def State.fetchWord (s : State) : Word :=
  wordOfBytes (s.mem.read s.pc.toNat) (s.mem.read (s.pc.toNat + 1))

/-- Fetch (R49, R62): out of bounds when pc > 0xFFE, with addr = pc. -/
def State.fetch (s : State) : Except Fault Word :=
  if s.pc.toNat + 1 ≤ Config.memTop then .ok s.fetchWord
  else .error (.addressOutOfBounds s.pc.toNat .fetch s.pc)

/-- A counter decremented by one while positive (R28, R29, R64). -/
def countDown (t : Byte) : Byte := if t = 0 then 0 else t - 1

/-- The timer tick (R64). -/
def State.tick (s : State) : State := { s with dt := countDown s.dt, st := countDown s.st }

/-- The inputs of the next step: the next scripted pair, else free values (R8, R32; log 3). -/
def State.nextInput (s : State) : State :=
  match s.pending with
  | i :: rest => { s with keys := i.keys, rnd := i.rnd, pending := rest }
  | [] => { s with keys := Config.freeKeys s.inputCount, rnd := Config.freeRnd s.inputCount,
                   inputCount := s.inputCount + 1 }

/-- What a step does after an execute phase that raised no fault: tick the timers (R64), take the next input. -/
def State.retire (s : State) : State := s.tick.nextInput

/-- The end of a step: a state that is still in Run retires; one the execute phase halted stays as it is (no tick, R121). -/
def endStep : Result → Result
  | .next s =>
    match s.status with
    | .run => .next s.retire
    | _ => .next s
  | .fault e => .fault e
  | .refused r => .refused r

/-- Place an instruction word in memory at pc, high byte first (R47). -/
def State.placeWord (s : State) (op : Word) : State :=
  s.setMem (s.mem.writeBytes s.pc.toNat [firstByte op, secondByte op])

end Sys2Proof.Machine
end

