-- ==== Sys2Proof/Machine/Flags.lean ====
section
/-! DEFINITION. The values the ALU instructions write into VF (R17, R85, R91–R95), and the two writes of such an instruction in their order. -/

namespace Sys2Proof.Machine

/-- A flag as the byte VF holds: 1 or 0. -/
def flagByte (b : Bool) : Byte := if b then 1 else 0

/-- Carry of 8XY4: the 9-bit sum exceeds 0xFF (R91). -/
def carryFlag (a b : Byte) : Byte := flagByte (decide (0xFF < a.toNat + b.toNat))

/-- No-borrow of 8XY5: strictly greater (R92, C1). -/
def greaterFlag (a b : Byte) : Byte := flagByte (decide (b.toNat < a.toNat))

/-- No-borrow of 8XY7: greater or equal (R94). -/
def noBorrowFlag (a b : Byte) : Byte := flagByte (decide (b.toNat ≤ a.toNat))

/-- The bit 8XY6 shifts out: bit 0 (R93). -/
def lowBitFlag (a : Byte) : Byte := a &&& 1

/-- The bit 8XYE shifts out: bit 7 (R95). -/
def highBitFlag (a : Byte) : Byte := a >>> 7

/-- V[0xF] <- flag (R16). -/
def State.setFlag (s : State) (flag : Byte) : State := s.setReg vF flag

end Sys2Proof.Machine
end

