-- ==== Sys2Proof/Machine/Alu.lean ====
section
/-! DEFINITION. ALU and register instructions (41_alu.md, R85–R96). An instruction with a flag writes VF first and V[X] second, each statement reading the state the one before left (R11, D2, log 5). -/

namespace Sys2Proof.Machine

/-- 6XNN: `V[X] <- NN` (R86). -/
def execLdImm (x : Nibble) (nn : Byte) (s : State) : Result := .next (s.setReg x nn).advance

/-- 7XNN: `V[X] <- (V[X] + NN) mod 0x100`, no flag (R87). -/
def execAddImm (x : Nibble) (nn : Byte) (s : State) : Result := .next (s.setReg x (s.reg x + nn)).advance

/-- 8XY0: `V[X] <- V[Y]` (R88). -/
def execLdReg (x y : Nibble) (s : State) : Result := .next (s.setReg x (s.reg y)).advance

/-- 8XY1: `V[X] <- V[X] | V[Y]`, no flag (R89). -/
def execOrReg (x y : Nibble) (s : State) : Result := .next (s.setReg x (s.reg x ||| s.reg y)).advance

/-- 8XY2: `V[X] <- V[X] & V[Y]`, no flag (R90). -/
def execAndReg (x y : Nibble) (s : State) : Result := .next (s.setReg x (s.reg x &&& s.reg y)).advance

/-- 8XY4: `sum <- V[X] + V[Y]; V[0xF] <- carry; V[X] <- sum mod 0x100` (R91). -/
def execAddReg (x y : Nibble) (s : State) : Result :=
  let sum := s.reg x + s.reg y
  let t := s.setFlag (carryFlag (s.reg x) (s.reg y))
  .next (t.setReg x sum).advance

/-- 8XY5: `V[0xF] <- V[X] > V[Y]; V[X] <- (V[X] - V[Y]) mod 0x100` (R92). -/
def execSub (x y : Nibble) (s : State) : Result :=
  let t := s.setFlag (greaterFlag (s.reg x) (s.reg y))
  .next (t.setReg x (t.reg x - t.reg y)).advance

/-- 8XY6: `V[0xF] <- V[X] & 1; V[X] <- V[X] >> 1`; Y is ignored (R73, R93). -/
def execShr (x _y : Nibble) (s : State) : Result :=
  let t := s.setFlag (lowBitFlag (s.reg x))
  .next (t.setReg x (t.reg x >>> 1)).advance

/-- 8XY7: `V[0xF] <- V[Y] >= V[X]; V[X] <- (V[Y] - V[X]) mod 0x100` (R94). -/
def execSubn (x y : Nibble) (s : State) : Result :=
  let t := s.setFlag (noBorrowFlag (s.reg y) (s.reg x))
  .next (t.setReg x (t.reg y - t.reg x)).advance

/-- 8XYE: `V[0xF] <- V[X] >> 7; V[X] <- (V[X] << 1) mod 0x100`; Y is ignored (R73, R95). -/
def execShl (x _y : Nibble) (s : State) : Result :=
  let t := s.setFlag (highBitFlag (s.reg x))
  .next (t.setReg x (t.reg x <<< 1)).advance

/-- CXNN: `V[X] <- rnd & NN` (R96). -/
def execRnd (x : Nibble) (nn : Byte) (s : State) : Result := .next (s.setReg x (s.rnd &&& nn)).advance

end Sys2Proof.Machine
end

