-- ==== Sys2Proof/Machine/Operands.lean ====
section
/-! DEFINITION. The operand forms: I-relative ranges with their bounds check (R97), the glyph address (R100), the key operand (R111), the lowest pressed key (R115). -/

namespace Sys2Proof.Machine

/-- Every address I, I + 1, …, I + count − 1 exists; a range of no bytes always does (R97, R105). -/
def State.rangeOk (s : State) (count : Nat) : Bool :=
  decide (count = 0 ∨ s.iReg.toNat + count ≤ Config.memTop + 1)

/-- The smallest I + k above 0xFFF (R97, R106). -/
def State.firstBadAddr (s : State) : Nat := max s.iReg.toNat (Config.memTop + 1)

/-- Run `k` when the `count` bytes at I exist, else raise AddressOutOfBounds before any effect (R51, R97). -/
def State.withRange (s : State) (count : Nat) (access : Access) (k : Result) : Result :=
  if s.rangeOk count then k else s.raise (.addressOutOfBounds s.firstBadAddr access s.pc)

/-- The address of the glyph for the digit `d`, the digit used whole (R100, D14). -/
def glyphAddr (d : Byte) : Word := BitVec.ofNat 16 (Config.fontBase + 5 * d.toNat)

/-- (I + b) mod 0x1000 (R99, D13). -/
def addToI (i : Word) (b : Byte) : Word := BitVec.ofNat 16 ((i.toNat + b.toNat) % 0x1000)

/-- The decimal digits of a byte: hundreds, tens, ones (R101). -/
def bcdDigits (b : Byte) : List Byte :=
  [BitVec.ofNat 8 (b.toNat / 100), BitVec.ofNat 8 (b.toNat / 10 % 10), BitVec.ofNat 8 (b.toNat % 10)]

/-- Run `k` on Keys[b] when `b` is a key code, else raise KeyIndexOutOfRange (R111, D7). -/
def State.withKey (s : State) (b : Byte) (k : Bool → Result) : Result :=
  if b.toNat ≤ 0xF then k (s.keys.getLsbD b.toNat) else s.raise (.keyIndexOutOfRange b s.pc)

/-- The lowest pressed key code, none when no key is pressed (R115, D8). -/
def lowestKey (keys : BitVec 16) : Option Nat := (List.range 16).find? fun k => keys.getLsbD k

end Sys2Proof.Machine
end

