-- ==== Sys2Proof/Machine/Display.lean ====
section
/-! DEFINITION. The framebuffer and the sprite engine (43_display.md, R104–R110). -/

namespace Sys2Proof.Machine

/-- Disp[x][y] (R10, R30). -/
def Display.pixel (d : Display) (x : Fin 64) (y : Fin 32) : Bool := d[y].getLsbD x

/-- Disp[x][y] <- Disp[x][y] XOR 1 (R106). -/
def Display.flip (d : Display) (x : Fin 64) (y : Fin 32) : Display :=
  d.set y (d[y] ^^^ BitVec.twoPow 64 x)

/-- The display all off (R104). -/
def Display.blank : Display := Vector.replicate 32 0

/-- The column of a horizontal coordinate: mod 64 (R107). -/
def column (x : Nat) : Fin 64 := Fin.ofNat 64 x

/-- The row of a vertical coordinate: mod 32 (R107). -/
def row (y : Nat) : Fin 32 := Fin.ofNat 32 y

/-- Draw one set sprite bit: note a collision when the pixel is on, then toggle it (R106, R108). -/
def drawPixel (x y : Nat) (p : Display × Bool) : Display × Bool :=
  (p.1.flip (column x) (row y), p.2 || p.1.pixel (column x) (row y))

/-- Draw bits b = 0..7 of one sprite byte, bit 7 leftmost (R106, R107). -/
def drawByte (x y : Nat) (sprite : Byte) (p : Display × Bool) : Display × Bool :=
  (List.range 8).foldl (fun q b => if sprite.getMsbD b then drawPixel (x + b) y q else q) p

/-- Draw the rows of a sprite downwards from row `y` (R106). -/
def drawRows (x : Nat) : Nat → List Byte → Display × Bool → Display × Bool
  | _, [], p => p
  | y, sprite :: rest, p => drawRows x (y + 1) rest (drawByte x y sprite p)

/-- 00E0: every pixel off, redraw <- 1 (R104). -/
def execCls (s : State) : Result := .next { s with disp := Display.blank, redraw := true }.advance

/-- DXYN (R105, R106): coordinates, I and N are sampled before VF is reset (D3, log 6); VF <- collision; redraw <- 1 always
(R110). -/
def execDrw (x y : Nibble) (n : Nat) (s : State) : Result :=
  s.withRange n .read
    (let drawn := drawRows (s.reg x).toNat (s.reg y).toNat (s.mem.readBytes s.iReg.toNat n) (s.disp, false)
     let t := s.setFlag (flagByte drawn.2)
     .next { t with disp := drawn.1, redraw := true }.advance)

end Sys2Proof.Machine
end

