-- ==== Sys2Proof/Machine/Flow.lean ====
section
/-! DEFINITION. Control transfer (40_flow.md, R76–R84): the return, the jumps, the call and the register skips. -/

namespace Sys2Proof.Machine

/-- 00EE: `ret <- Pop(); pc <- ret + 2` (R77). -/
def execRet (s : State) : Result :=
  match s.pop with
  | some (ret, t) => .next (t.setPc (wordOfAddr ret + 2))
  | none => s.raise (.stackUnderflow s.pc)

/-- 1NNN: `pc <- NNN` (R78). -/
def execJp (nnn : Addr) (s : State) : Result := .next (s.setPc (wordOfAddr nnn))

/-- 2NNN: `Push(pc); pc <- NNN` (R79); the pushed address is the 2NNN's own. -/
def execCall (nnn : Addr) (s : State) : Result :=
  match s.push (s.pc.setWidth 12) with
  | some t => .next (t.setPc (wordOfAddr nnn))
  | none => s.raise (.stackOverflow s.pc)

/-- 3XNN: skip if V[X] = NN (R80). -/
def execSeImm (x : Nibble) (nn : Byte) (s : State) : Result := .next (s.skipIf (s.reg x == nn))

/-- 4XNN: skip if V[X] ≠ NN (R81). -/
def execSneImm (x : Nibble) (nn : Byte) (s : State) : Result := .next (s.skipIf (s.reg x != nn))

/-- 5XY0: skip if V[X] = V[Y] (R82, C7). -/
def execSeReg (x y : Nibble) (s : State) : Result := .next (s.skipIf (s.reg x == s.reg y))

/-- 9XY0: skip if V[X] ≠ V[Y] (R83). -/
def execSneReg (x y : Nibble) (s : State) : Result := .next (s.skipIf (s.reg x != s.reg y))

/-- BNNN: `pc <- NNN + V[0]`, not masked (R84). -/
def execJpV0 (nnn : Addr) (s : State) : Result :=
  .next (s.setPc (wordOfAddr nnn + (s.reg 0x0).setWidth 16))

end Sys2Proof.Machine
end

