-- ==== Sys2Proof/Machine/IndexMemory.lean ====
section
/-! DEFINITION. Index register and memory instructions (42_index_memory.md, R97–R103). -/

namespace Sys2Proof.Machine

/-- ANNN: `I <- NNN` (R98). -/
def execLdI (nnn : Addr) (s : State) : Result := .next (s.setI (wordOfAddr nnn)).advance

/-- FX1E: `I <- (I + V[X]) mod 0x1000`, no flag (R99, C8). -/
def execAddI (x : Nibble) (s : State) : Result := .next (s.setI (addToI s.iReg (s.reg x))).advance

/-- FX29: `I <- 0x050 + 5 × V[X]` (R100). -/
def execLdF (x : Nibble) (s : State) : Result := .next (s.setI (glyphAddr (s.reg x))).advance

/-- FX33: the decimal digits of V[X] at I, I + 1, I + 2 (R101). -/
def execLdB (x : Nibble) (s : State) : Result :=
  s.withRange 3 .write
    (.next (s.setMem (s.mem.writeBytes s.iReg.toNat (bcdDigits (s.reg x)))).advance)

/-- FX55: V0..V[X] at I .. I + X; I unchanged (R102). -/
def execStoreRegs (x : Nibble) (s : State) : Result :=
  s.withRange (x.toNat + 1) .write
    (.next (s.setMem (s.mem.writeBytes s.iReg.toNat (s.firstRegs (x.toNat + 1)))).advance)

/-- FX65: V0..V[X] from I .. I + X, then `I <- I + X + 1`, not masked (R103). -/
def execLoadRegs (x : Nibble) (s : State) : Result :=
  s.withRange (x.toNat + 1) .read
    (let t := s.setRegsFrom 0 (s.mem.readBytes s.iReg.toNat (x.toNat + 1))
     .next (t.setI (t.iReg + x.setWidth 16 + 1)).advance)

end Sys2Proof.Machine
end

