-- ==== Sys2Proof/Machine/TimersInput.lean ====
section
/-! DEFINITION. Key and timer instructions (44_timers_input.md, R111–R117). -/

namespace Sys2Proof.Machine

/-- EX9E: skip if the key V[X] is pressed (R111, R112). -/
def execSkp (x : Nibble) (s : State) : Result :=
  s.withKey (s.reg x) fun pressed => .next (s.skipIf pressed)

/-- EXA1: skip if the key V[X] is not pressed (R111, R113). -/
def execSknp (x : Nibble) (s : State) : Result :=
  s.withKey (s.reg x) fun pressed => .next (s.skipIf !pressed)

/-- FX07: `V[X] <- DT`, the value before this step's tick (R114). -/
def execLdVxDt (x : Nibble) (s : State) : Result := .next (s.setReg x s.dt).advance

/-- FX0A: the lowest pressed key into V[X]; with none pressed a completed step that leaves pc (R115, R131). -/
def execLdVxK (x : Nibble) (s : State) : Result :=
  match lowestKey s.keys with
  | some k => .next (s.setReg x (BitVec.ofNat 8 k)).advance
  | none => .next s

/-- FX15: `DT <- V[X]` (R116). -/
def execLdDtVx (x : Nibble) (s : State) : Result := .next { s with dt := s.reg x }.advance

/-- FX18: `ST <- V[X]` (R117). -/
def execLdStVx (x : Nibble) (s : State) : Result := .next { s with st := s.reg x }.advance

end Sys2Proof.Machine
end

