-- ==== Sys2Proof/Machine/Step.lean ====
section
/-! DEFINITION. One step (R61, R65): status gate, fetch, decode, execute, timer tick; and the placing of an instruction where the next step fetches it. -/

namespace Sys2Proof.Machine

/-- The instruction cycle of R61 in status Run: fetch, decode, execute, tick, in that order (R123). -/
def cycle (s : State) : Result :=
  match s.fetch with
  | .error e => s.raise e
  | .ok op =>
    match decodeBytes (firstByte op) (secondByte op) with
    | .error (.unsupportedInstruction w) => s.raise (.unsupportedInstruction w s.pc)
    | .ok i => endStep (exec i s)

/-- step(keys, rnd) with the inputs taken from the state: refused before a program is loaded (R65, R132), the same error
again when halted (R65, R122), one instruction cycle in Run. -/
def step (s : State) : Host.Outcome State Fault Refusal :=
  match s.status with
  | .uninit => .refused .stepBeforeInit
  | .init => .refused .stepBeforeLoad
  | .halted e => .fault e
  | .run => cycle s

/-- The state whose next step fetches and runs the instruction with the table's bits `w`: the word placed at pc (pc moved to
0x200 when no instruction can be fetched there), status Run. It stands for `loadProgram` (log 15). -/
def State.withFetchWord (s : State) (nbits w : Nat) : State :=
  let t := if s.pc.toNat + 1 ≤ Config.memTop then s else s.setPc 0x200
  { t.placeWord (tableWord nbits w) with status := .run }

end Sys2Proof.Machine
end

