-- ==== Sys2Proof/Machine/HostPort.lean ====
section
/-! DEFINITION. The block's ports to the host, each a transaction between steps (R37, R38, R132–R141, R150). -/

namespace Sys2Proof.Machine

/-- init(): the reset state whatever the machine held, in every status (R135, R141). The host's inputs are not the machine's
state and stay (log 3). -/
def State.init (s : State) : State :=
  { State.reset with keys := s.keys, rnd := s.rnd, pending := s.pending, inputCount := s.inputCount }

/-- loadProgram(bytes) (R137): in Init, the bytes at 0x200.. and status Run, or MalformedRom with nothing changed when they
are more than 3584; refused in every other status (R132). -/
def State.loadProgram (s : State) (bytes : List Byte) : Result :=
  match s.status with
  | .init =>
    if Config.maxProgram < bytes.length then .fault (.malformedRom bytes.length)
    else .next { s with mem := s.mem.writeBytes Config.programBase bytes, status := .run }
  | .uninit | .run | .halted _ => .refused .loadOutOfOrder

/-- The host supplies the inputs of the coming step (R32, R33). -/
def State.supply (s : State) (keys : BitVec 16) (rnd : Byte) : State := { s with keys := keys, rnd := rnd }

/-- What a step transaction returns to the host (R37, R61). -/
inductive StepReturn where
  /-- Ok(redraw). -/
  | ok (redraw : Bool)
  /-- Error(e). -/
  | error (e : Fault)
  deriving DecidableEq, Repr

/-- The state after a step and what the step returned. -/
structure StepReport where
  state : State
  result : StepReturn
  deriving DecidableEq, Repr

/-- Ok(redraw), or Error(e) of the fatal error that halted the machine in this step (R61). -/
def State.stepReturn (s : State) : StepReturn :=
  match s.status with
  | .halted e => .error e
  | .uninit | .init | .run => .ok s.redraw

/-- step(keys, rnd) as the host's transaction (R37, R61): the new state and Ok(redraw) or Error(e); none when the action is
refused (R132). A fault in this very step returns its error; a halted machine returns it again, unchanged (R122). -/
def State.hostStep (s : State) (keys : BitVec 16) (rnd : Byte) : Option StepReport :=
  match step (s.supply keys rnd) with
  | .next t => some ⟨t, t.stepReturn⟩
  | .fault e => some ⟨s, .error e⟩
  | .refused _ => none

/-- readDisplay(): the 2048 pixels, row-major: pixel (x, y) is element y·64 + x (R30, R37). In status Uninit R133 defines no
display; that the field is answered there too is DESIGN CHOICE (log 21, unsafe). -/
def State.readDisplay (s : State) : List Bool :=
  (List.range 2048).map fun k => s.disp.pixel (column k) (row (k / 64))

/-- readRedraw() (R37). In status Uninit too: DESIGN CHOICE (R133, log 21, unsafe). -/
def State.readRedraw (s : State) : Bool := s.redraw

/-- clearRedraw(): redraw <- 0, the only way redraw is cleared (R31, R37). In status Uninit too: DESIGN CHOICE (R133, log 21,
unsafe). -/
def State.clearRedraw (s : State) : State := { s with redraw := false }

/-- readTimers(): (DT, ST) (R37). In status Uninit too: DESIGN CHOICE (R133, log 21, unsafe). -/
def State.readTimers (s : State) : Byte × Byte := (s.dt, s.st)

/-- The numeric code of a fatal error (R119, D21). -/
def faultCode : Fault → Nat
  | .unsupportedInstruction _ _ => 1
  | .stackOverflow _ => 2
  | .stackUnderflow _ => 3
  | .addressOutOfBounds _ _ _ => 4
  | .keyIndexOutOfRange _ _ => 5
  | .malformedRom _ => 6

end Sys2Proof.Machine
end

