-- ==== Sys2Proof/Safety.lean ====
section
/-! DEFINITION. The invariant of the machine, what a safe run is, and the vocabulary of frames in which claims are stated. -/

namespace Sys2Proof.Machine

/-- The entries of the state that the types alone do not bound, as the rules bound them. -/
structure Inv (s : State) : Prop where
  /-- Memory is in canonical form. -/
  memCanonical : s.mem.wf = true
  /-- Memory lists no address outside 0x000–0xFFF (R41). -/
  memInRange : ∀ c ∈ s.mem, c.1 ≤ Config.memTop
  /-- I lies in 0x000–0x1000 (R20). -/
  indexInRange : s.iReg.toNat ≤ 0x1000
  /-- pc lies in 0x000–0x10FE (R23, R35). -/
  pcInRange : s.pc.toNat ≤ 0x10FE
  /-- Every stack entry lies in 0x000–0xFFE (R25, R35). -/
  stackInRange : ∀ (k : Nat) (h : k < 16), (s.stack[k]).toNat ≤ 0xFFE
  /-- No step halts with MalformedRom (R119). -/
  haltedByStep : ∀ n, s.status ≠ .halted (.malformedRom n)

/-- A step that completes and leaves the machine running. -/
def SafeStep (s : State) : Prop := ∃ t, step s = .next t ∧ t.status = .run

/-- A run of `n` steps that meets no fatal error. -/
def SafeFor : Nat → State → Prop
  | 0, _ => True
  | n + 1, s => ∃ t, step s = .next t ∧ t.status = .run ∧ SafeFor n t

/-- The instruction the next step decodes, none when the fetch or the decoding fails (R62, R63). -/
def State.nextInstr (s : State) : Option Instr :=
  match s.fetch with
  | .error _ => none
  | .ok op => (decode op).toOption

/-- The next step of `s` is an FX33 or FX55 that stores a byte at address `a` (R50, R58). -/
def State.storesTo (s : State) (a : Nat) : Prop :=
  ∃ x, (s.nextInstr = some (.ldB x) ∧ s.iReg.toNat ≤ a ∧ a < s.iReg.toNat + 3) ∨
    (s.nextInstr = some (.storeRegs x) ∧ s.iReg.toNat ≤ a ∧ a ≤ s.iReg.toNat + x.toNat)

/-- `n` steps lead from `s` to `u`, none of which stores a byte at `a`. -/
def RunsWithoutStoreTo (a : Nat) : Nat → State → State → Prop
  | 0, s, u => u = s
  | n + 1, s, u => ¬ s.storesTo a ∧ ∃ t, step s = .next t ∧ RunsWithoutStoreTo a n t u

/-- `a` is the smallest I + k above 0xFFF of an access to `count` bytes at I (R97). -/
def State.FirstOutOfRange (s : State) (count a : Nat) : Prop :=
  0xFFF < a ∧ (∃ k, k < count ∧ a = s.iReg.toNat + k) ∧
    ∀ j, j < count → 0xFFF < s.iReg.toNat + j → a ≤ s.iReg.toNat + j

/-- The parts of the state a frame speaks of. -/
inductive Part where
  | regs | index | pc | memory | stack | delay | sound | display | redraw | status
  deriving DecidableEq, Repr

/-- `t` agrees with `s` in every part that is not listed, and in the inputs (R12: state a rule does not name is unchanged;
R32: the key snapshot never changes). Memory agrees byte by byte. -/
structure KeepsBut (parts : List Part) (s t : State) : Prop where
  regs : .regs ∉ parts → ∀ r, t.reg r = s.reg r
  index : .index ∉ parts → t.iReg = s.iReg
  pc : .pc ∉ parts → t.pc = s.pc
  memory : .memory ∉ parts → ∀ a, t.mem.read a = s.mem.read a
  stack : .stack ∉ parts → t.sp = s.sp ∧ t.stack = s.stack
  delay : .delay ∉ parts → t.dt = s.dt
  sound : .sound ∉ parts → t.st = s.st
  display : .display ∉ parts → ∀ x y, t.disp.pixel x y = s.disp.pixel x y
  redraw : .redraw ∉ parts → t.redraw = s.redraw
  status : .status ∉ parts → t.status = s.status
  inputs : t.keys = s.keys ∧ t.rnd = s.rnd ∧ t.pending = s.pending ∧ t.inputCount = s.inputCount

/-- Every register but `x` is unchanged. -/
def RegsKeptBut (x : Nibble) (s t : State) : Prop := ∀ r, r ≠ x → t.reg r = s.reg r

/-- Every byte outside `base .. base + n − 1` reads as before. -/
def MemoryKeptOutside (base n : Nat) (s t : State) : Prop :=
  ∀ a, a < base ∨ base + n ≤ a → t.mem.read a = s.mem.read a

/-- `i` at `s` answers a next state with pc = `target`, of which `P` holds. -/
def CompletesAt (i : Instr) (s : State) (target : Word) (P : State → Prop) : Prop :=
  ∃ t, exec i s = .next t ∧ t.pc = target ∧ P t

/-- `i` at `s` answers a next state, at the following instruction, of which `P` holds. -/
def Completes (i : Instr) (s : State) (P : State → Prop) : Prop := CompletesAt i s (s.pc + 2) P

/-- `i` at `s` commits nothing and halts the machine with the error `e` (R121). -/
def HaltsWith (i : Instr) (s : State) (e : Fault) : Prop :=
  exec i s = .next { s with status := .halted e }

/-- A change of the state, applied to the state a result carries. -/
def mapState (f : State → State) : Result → Result
  | .next t => .next (f t)
  | .fault e => .fault e
  | .refused r => .refused r

/-- `i` neither reads nor writes what `f` overwrites: overwriting it before or after execute is the same. -/
def Ignores (i : Instr) (f : State → State) : Prop := ∀ s, exec i (f s) = mapState f (exec i s)

/-- Pixel (px, py) lies under a set bit of the `n`-row sprite whose row r is `rowAt r`, drawn at (x0, y0) with per-pixel
wrapping; bit 7 of a row is its leftmost pixel (R106, R107). -/
def SpriteCovers (x0 y0 : Nat) (rowAt : Nat → Byte) (n : Nat) (px : Fin 64) (py : Fin 32) : Prop :=
  ∃ r b, r < n ∧ b < 8 ∧ (rowAt r).getLsbD (7 - b) = true ∧ px.val = (x0 + b) % 64 ∧ py.val = (y0 + r) % 32

/-- Where DXYN at `s` draws: the sprite at I, at (V[X], V[Y]) as the instruction found them (R105, R106). -/
def State.spriteAt (s : State) (x y : Nibble) (n : Nat) (px : Fin 64) (py : Fin 32) : Prop :=
  SpriteCovers (s.reg x).toNat (s.reg y).toNat (fun r => s.mem.read (s.iReg.toNat + r)) n px py

end Sys2Proof.Machine
end

