-- ==== Sys2Proof/Certificates/Slice0/Obligations.lean ====
section
/-! DEFINITION. The statements for the provers, one `def Obligations.<Name> : Prop` each, listed in OBLIGATIONS.json. A
statement that rests on a decision of the spec (D<n>) or on a choice of the model (log <n>) says so. -/

open Sys2Proof Sys2Proof.Machine

/- Encoding -/

/-- Decoding the two bytes of an encoded well-formed instruction gives it back, with every operand (R59, R60, R67, R73). -/
def Obligations.DecodeOfEncodeIsIdentity : Prop :=
  ∀ i : Instr, i.wellFormed = true → decodeBytes (firstByte (encode i)) (secondByte (encode i)) = .ok i

/-- Every word that decodes is the encoding of what it decodes to, and that is well formed (R67, R70, R72). -/
def Obligations.EncodeOfDecodeIsIdentity : Prop :=
  ∀ (op : Word) (i : Instr), decode op = .ok i → i.wellFormed = true ∧ encode i = op

/-- The decoder is the opcode map of R67: a word is a row's instruction exactly when `w &&& mask = match`, and a word that
matches no row is refused (R66, R67; strictness R68 is the spec's decision D11, log 11). -/
def Obligations.DecodeFollowsTheOpcodeMap : Prop :=
  ∀ op : Word,
    (∀ i, decode op = .ok i → ∃ r ∈ opcodeRows, r.mnemonic = i.mnemonic ∧ op &&& r.mask = r.bits) ∧
    (∀ r ∈ opcodeRows, op &&& r.mask = r.bits → ∃ i, decode op = .ok i ∧ i.mnemonic = r.mnemonic) ∧
    ((∀ r ∈ opcodeRows, op &&& r.mask ≠ r.bits) → decode op = .error (.unsupportedInstruction op))

/-- Words written out from the encoding column of R67, one per family of the table, decode to the instruction they stand for. -/
def Obligations.SampleWordsDecode : Prop :=
  decode 0b0001_0010_0011_0100#16 = .ok (.jp 0x234) ∧
  decode 0b0011_0011_0100_0010#16 = .ok (.seImm 0x3 0x42) ∧
  decode 0b1000_0000_0001_0100#16 = .ok (.addReg 0x0 0x1) ∧
  decode 0b1111_0010_0101_0101#16 = .ok (.storeRegs 0x2) ∧
  decode 0b1101_0000_0001_0010#16 = .ok (.drw 0x0 0x1 2) ∧
  decode 0b1110_0001_1001_1110#16 = .ok (.skp 0x1) ∧
  decode 0b1111_0010_0000_1010#16 = .ok (.ldVxK 0x2)

/- The step -/

/-- A step in Run whose two bytes at pc decode to `i` is execute of `i`, followed, unless execute halted the machine, by the
timer tick and the taking of the next input (R61, R62). Two conventions are the model's own: the inputs stand in the state
(log 3), and a step whose execute phase raised a fatal error answers the halted state as its next state (log 4). -/
def Obligations.StepRunsTheDecodedInstruction : Prop :=
  ∀ (s t : State) (i : Instr), s.status = .run → s.pc.toNat ≤ 0xFFE →
    decodeBytes (s.mem.read s.pc.toNat) (s.mem.read (s.pc.toNat + 1)) = .ok i → exec i s = .next t →
    (t.status = .run → step s = .next t.tick.nextInput) ∧
    (∀ e, t.status = .halted e → step s = .next t)

/-- Fetch combines the bytes at pc and pc + 1, the byte at pc the high one (R47). -/
def Obligations.FetchIsBigEndian : Prop :=
  ∀ s : State, s.pc.toNat ≤ 0xFFE →
    ∃ op, s.fetch = .ok op ∧
      op.toNat = (s.mem.read s.pc.toNat).toNat * 256 + (s.mem.read (s.pc.toNat + 1)).toNat

/-- A fetch with pc > 0xFFE halts the machine with AddressOutOfBounds, addr = pc, access = fetch, and commits nothing
(R49, R62, R119, R121; the recorded address is the spec's decision D10, log 10). -/
def Obligations.FetchOutOfRangeHalts : Prop :=
  ∀ s : State, s.status = .run → 0xFFE < s.pc.toNat →
    step s = .next { s with status := .halted (.addressOutOfBounds s.pc.toNat .fetch s.pc) }

/-- A fetched word that matches no row of R67 raises UnsupportedInstruction with the word and pc, and halts the machine (R66). -/
def Obligations.UnsupportedWordHalts : Prop :=
  ∀ (s : State) (op : Word), s.status = .run → s.pc.toNat ≤ 0xFFE →
    op = wordOfBytes (s.mem.read s.pc.toNat) (s.mem.read (s.pc.toNat + 1)) →
    (∀ r ∈ opcodeRows, op &&& r.mask ≠ r.bits) →
    step s = .next { s with status := .halted (.unsupportedInstruction op s.pc) }

/-- A step before `init` or before a successful `loadProgram` is refused; a step of a halted machine answers its error again,
and so does the step transaction, which changes nothing (R65, R122, R132; the spec's decisions D6 and D18, logs 4 and 15). -/
def Obligations.StatusGatesTheStep : Prop :=
  ∀ (s : State) (e : Fault) (keys : BitVec 16) (rnd : Byte),
    (s.status = .uninit → step s = .refused .stepBeforeInit) ∧
    (s.status = .init → step s = .refused .stepBeforeLoad) ∧
    (s.status = .halted e → step s = .fault e ∧ s.hostStep keys rnd = some ⟨s, .error e⟩)

/-- The step transaction returns Ok(redraw) when the machine still runs and Error(e) in the very step that raises e
(R37, R61; that a faulting step is a next state in status Halted is the model's form, log 4). -/
def Obligations.HostStepReturnsOkOrError : Prop :=
  ∀ (s t : State) (keys : BitVec 16) (rnd : Byte), step (s.supply keys rnd) = .next t →
    (t.status = .run → s.hostStep keys rnd = some ⟨t, .ok t.redraw⟩) ∧
    (∀ e, t.status = .halted e → s.hostStep keys rnd = some ⟨t, .error e⟩)

/-- A step that raises a fault changes nothing but `status`: no memory, register, stack, timer, display or redraw change, and
no tick (R121; the spec's decision D6, log 4). -/
def Obligations.FaultingStepCommitsNothing : Prop :=
  ∀ (s t : State) (e : Fault), step s = .next t → t.status = .halted e → t = { s with status := .halted e }

/-- A step in Run always answers a next state, in status Run or Halted (R5, R72, R118). That a step which raises a fatal error
answers a next state in status Halted is the model's form (log 4); R118 says that it ends with Error(e). -/
def Obligations.RunningStepAlwaysCompletes : Prop :=
  ∀ s : State, s.status = .run → ∃ t, step s = .next t ∧ (t.status = .run ∨ ∃ e, t.status = .halted e)

/-- Which instruction raises which fault in the execute phase, when, and what the fault records: pc, the key value, the first
address out of range (R97, R119, R123; the key fault is the spec's decision D7, log 7, the recorded address D6; that a faulting
execute is a next state in status Halted is the model's form, log 4). -/
def Obligations.EveryFaultComesFromItsInstruction : Prop :=
  ∀ (i : Instr) (s t : State) (e : Fault), s.status = .run → exec i s = .next t → t.status = .halted e →
    (∃ nnn, i = .call nnn ∧ s.sp.val = 16 ∧ e = .stackOverflow s.pc) ∨
    (i = .ret ∧ s.sp.val = 0 ∧ e = .stackUnderflow s.pc) ∨
    (∃ x, (i = .skp x ∨ i = .sknp x) ∧ 0xF < (s.reg x).toNat ∧ e = .keyIndexOutOfRange (s.reg x) s.pc) ∨
    (∃ x, i = .ldB x ∧ 0xFFF < s.iReg.toNat + 2 ∧
      ∃ a, s.FirstOutOfRange 3 a ∧ e = .addressOutOfBounds a .write s.pc) ∨
    (∃ x, i = .storeRegs x ∧ 0xFFF < s.iReg.toNat + x.toNat ∧
      ∃ a, s.FirstOutOfRange (x.toNat + 1) a ∧ e = .addressOutOfBounds a .write s.pc) ∨
    (∃ x, i = .loadRegs x ∧ 0xFFF < s.iReg.toNat + x.toNat ∧
      ∃ a, s.FirstOutOfRange (x.toNat + 1) a ∧ e = .addressOutOfBounds a .read s.pc) ∨
    (∃ x y n, i = .drw x y n ∧ 0 < n ∧ 0xFFF < s.iReg.toNat + n - 1 ∧
      ∃ a, s.FirstOutOfRange n a ∧ e = .addressOutOfBounds a .read s.pc)

/-- Every step that raises no fault decrements each timer by one while positive, after execute: a timer FX15 or FX18 writes
ends at V[X] − 1, any other at its value − 1, never below 0 (R64; the special steps are the spec's decision D9, log 9). -/
def Obligations.TimersTickOncePerStep : Prop :=
  ∀ s t : State, step s = .next t → t.status = .run →
    (∀ x, s.nextInstr = some (.ldDtVx x) → t.dt.toNat = (s.reg x).toNat - 1) ∧
    ((∀ x, s.nextInstr ≠ some (.ldDtVx x)) → t.dt.toNat = s.dt.toNat - 1) ∧
    (∀ x, s.nextInstr = some (.ldStVx x) → t.st.toNat = (s.reg x).toNat - 1) ∧
    ((∀ x, s.nextInstr ≠ some (.ldStVx x)) → t.st.toNat = s.st.toNat - 1)

/- Invariants -/

/-- Every step keeps the invariant: canonical memory within 4096 cells, I ≤ 0x1000, pc ≤ 0x10FE, stack entries ≤ 0xFFE, no
halt with MalformedRom (R20, R23, R25, R35, R41, R119; the canonical form is the model's, log 17). -/
def Obligations.StepKeepsTheInvariant : Prop :=
  ∀ s t : State, Inv s → step s = .next t → Inv t

/-- The reset state meets the invariant (R39, R41). The canonical form of memory in it is the model's (log 17); the zeros of the
stack and of memory are the spec's decision D4 (log 2). -/
def Obligations.ResetMeetsTheInvariant : Prop := Inv State.reset

/-- A successful `loadProgram` keeps the invariant (R137, R138). -/
def Obligations.LoadProgramKeepsTheInvariant : Prop :=
  ∀ (s t : State) (bytes : List Byte), Inv s → s.loadProgram bytes = .next t → Inv t

/- Whole-machine rules -/

/-- The pc update of every instruction (R22). -/
def Obligations.PcUpdateOfEveryInstruction : Prop :=
  ∀ (i : Instr) (s t : State), s.status = .run → exec i s = .next t → t.status = .run →
    match i with
    | .jp nnn | .call nnn => t.pc.toNat = nnn.toNat
    | .jpV0 nnn => t.pc.toNat = nnn.toNat + (s.reg 0).toNat
    | .ret => ∃ popped : Addr, s.stack[s.sp.val - 1]? = some popped ∧ t.pc.toNat = popped.toNat + 2
    | .seImm _ _ | .sneImm _ _ | .seReg _ _ | .sneReg _ _ | .skp _ | .sknp _ =>
      t.pc = s.pc + 4 ∨ t.pc = s.pc + 2
    | .ldVxK _ => t.pc = if s.keys = 0 then s.pc else s.pc + 2
    | .cls | .ldImm _ _ | .addImm _ _ | .ldReg _ _ | .orReg _ _ | .andReg _ _ | .addReg _ _ | .sub _ _
    | .shr _ _ | .subn _ _ | .shl _ _ | .ldI _ | .rnd _ _ | .drw _ _ _ | .ldVxDt _ | .ldDtVx _ | .ldStVx _
    | .addI _ | .ldF _ | .ldB _ | .storeRegs _ | .loadRegs _ => t.pc = s.pc + 2

/-- No instruction other than 2NNN and 00EE reads or writes the stack or SP (R27). -/
def Obligations.StackReachedOnlyByCallAndReturn : Prop :=
  ∀ i : Instr, (∀ nnn, i ≠ .call nnn) → i ≠ .ret →
    ∀ (p : Fin 17) (k : Vector Addr 16), Ignores i fun s => { s with sp := p, stack := k }

/-- Only FX33 and FX55 write memory in a step (R58). -/
def Obligations.MemoryWrittenOnlyByBcdAndStore : Prop :=
  ∀ (s t : State) (a : Nat), step s = .next t → t.mem.read a ≠ s.mem.read a →
    ∃ x, s.nextInstr = some (.ldB x) ∨ s.nextInstr = some (.storeRegs x)

/-- VF changes only by the six instructions that write it as a flag, or by one that names it as its destination (R17). -/
def Obligations.FlagRegisterHasOnlyItsWriters : Prop :=
  ∀ (i : Instr) (s t : State), exec i s = .next t → t.reg 0xF ≠ s.reg 0xF →
    (∃ x y, i = .addReg x y ∨ i = .sub x y ∨ i = .shr x y ∨ i = .subn x y ∨ i = .shl x y) ∨
    (∃ x y n, i = .drw x y n) ∨
    (∃ nn, i = .ldImm 0xF nn ∨ i = .addImm 0xF nn ∨ i = .rnd 0xF nn) ∨
    (∃ y, i = .ldReg 0xF y ∨ i = .orReg 0xF y ∨ i = .andReg 0xF y) ∨
    i = .ldVxDt 0xF ∨ i = .ldVxK 0xF ∨ i = .loadRegs 0xF

/-- redraw is raised by every completed 00E0 and DXYN and by nothing else, and no step clears it; `clearRedraw` does (R31). -/
def Obligations.RedrawIsRaisedByDrawingOnly : Prop :=
  ∀ s t : State, step s = .next t →
    (s.redraw = true → t.redraw = true) ∧
    (s.redraw = false → t.redraw = true →
      s.nextInstr = some .cls ∨ ∃ x y n, s.nextInstr = some (.drw x y n)) ∧
    (t.status = .run → (s.nextInstr = some .cls ∨ ∃ x y n, s.nextInstr = some (.drw x y n)) → t.redraw = true) ∧
    t.clearRedraw.redraw = false

/-- No instruction other than 00E0 and DXYN reads or writes the display or redraw (R30, R31). -/
def Obligations.DisplayReachedOnlyByClearAndDraw : Prop :=
  ∀ i : Instr, i ≠ .cls → (∀ x y n, i ≠ .drw x y n) →
    ∀ (d : Display) (r : Bool), Ignores i fun s => { s with disp := d, redraw := r }

/-- Only EX9E, EXA1 and FX0A read the key snapshot, only CXNN reads the random byte, and execute changes neither (R32, R33;
that the inputs stand in the state is the model's form, log 3). -/
def Obligations.InputsReadOnlyByTheirInstructions : Prop :=
  ∀ i : Instr,
    ((∀ x, i ≠ .skp x ∧ i ≠ .sknp x ∧ i ≠ .ldVxK x) → ∀ k : BitVec 16, Ignores i fun s => { s with keys := k }) ∧
    ((∀ x nn, i ≠ .rnd x nn) → ∀ b : Byte, Ignores i fun s => { s with rnd := b }) ∧
    (∀ s t, exec i s = .next t → t.keys = s.keys ∧ t.rnd = s.rnd)

/-- No instruction but FX07 and FX15 reads or writes DT, and none but FX18 reads or writes ST, in its execute phase (R28, R29). -/
def Obligations.TimersReachedOnlyByTheirInstructions : Prop :=
  ∀ i : Instr,
    ((∀ x, i ≠ .ldVxDt x ∧ i ≠ .ldDtVx x) → ∀ b : Byte, Ignores i fun s => { s with dt := b }) ∧
    ((∀ x, i ≠ .ldStVx x) → ∀ b : Byte, Ignores i fun s => { s with st := b })

/-- I is reached only by ANNN, FX1E, FX29, FX33, FX55, FX65 and DXYN, and memory only by DXYN, FX33, FX55 and FX65 (R19, R41). -/
def Obligations.IndexAndMemoryReachedOnlyByTheirInstructions : Prop :=
  ∀ i : Instr, (∀ x, i ≠ .ldB x ∧ i ≠ .storeRegs x ∧ i ≠ .loadRegs x) → (∀ x y n, i ≠ .drw x y n) →
    (∀ m : Memory, Ignores i fun s => { s with mem := m }) ∧
    ((∀ nnn, i ≠ .ldI nnn) → (∀ x, i ≠ .addI x ∧ i ≠ .ldF x) → ∀ w : Word, Ignores i fun s => { s with iReg := w })

/- Control transfer -/

/-- 1NNN goes to NNN; BNNN goes to NNN + V0, not masked; VF is unchanged (R78, R84). -/
def Obligations.JumpsGoToTheirTarget : Prop :=
  ∀ (nnn : Addr) (s : State),
    (∃ t, exec (.jp nnn) s = .next t ∧ t.pc.toNat = nnn.toNat ∧ t.reg 0xF = s.reg 0xF) ∧
    (∃ t, exec (.jpV0 nnn) s = .next t ∧ t.pc.toNat = nnn.toNat + (s.reg 0).toNat ∧ t.reg 0xF = s.reg 0xF)

/-- 2NNN with room on the stack stores its own address in Stack[SP], adds 1 to SP and goes to NNN; with SP = 16 it halts the
machine with StackOverflow and changes nothing else (R25, R79, R121; the stack's layout is the spec's decision D23, log 17,
the effect of a fault its decision D6; the halted next state is the model's form, log 4). -/
def Obligations.CallPushesItsOwnAddress : Prop :=
  ∀ (nnn : Addr) (s : State),
    (s.sp.val < 16 → s.pc.toNat ≤ 0xFFE →
      ∃ t, exec (.call nnn) s = .next t ∧ t.pc.toNat = nnn.toNat ∧ t.sp.val = s.sp.val + 1 ∧ t.reg 0xF = s.reg 0xF ∧
        ∃ ret : Addr, t.stack[s.sp.val]? = some ret ∧ ret.toNat = s.pc.toNat) ∧
    (s.sp.val = 16 → HaltsWith (.call nnn) s (.stackOverflow s.pc))

/-- 00EE pops the last return address and goes to it plus 2, leaving the entry in Stack; with SP = 0 it halts the machine with
StackUnderflow and changes nothing else (R26, R77, R121; the stack's layout is the spec's decision D23, log 17, the effect of
a fault its decision D6; the halted next state is the model's form, log 4). -/
def Obligations.ReturnGoesPastTheCall : Prop :=
  ∀ s : State,
    (∀ ret : Addr, 0 < s.sp.val → s.stack[s.sp.val - 1]? = some ret →
      ∃ t, exec .ret s = .next t ∧ t.pc.toNat = ret.toNat + 2 ∧ t.sp.val = s.sp.val - 1 ∧ t.stack = s.stack ∧
        t.reg 0xF = s.reg 0xF) ∧
    (s.sp.val = 0 → HaltsWith .ret s (.stackUnderflow s.pc))

/-- A return right after a call resumes at the instruction after the call, with SP and the entries below it as they were
(R25, R26, R77, R79; the stack's layout is the spec's decision D23, log 17). -/
def Obligations.CallThenReturnResumesAfterTheCall : Prop :=
  ∀ (nnn : Addr) (s : State), s.sp.val < 16 → s.pc.toNat ≤ 0xFFE →
    ∃ t u, exec (.call nnn) s = .next t ∧ exec .ret t = .next u ∧ u.pc = s.pc + 2 ∧ u.sp = s.sp ∧
      (∀ k, k < s.sp.val → u.stack[k]? = s.stack[k]?) ∧ ∀ r, u.reg r = s.reg r

/-- The four register skips add 4 to pc when their condition holds and 2 when it does not; VF is unchanged
(R80, R81, R82, R83). -/
def Obligations.RegisterSkipsCompare : Prop :=
  ∀ (x y : Nibble) (nn : Byte) (s : State),
    (∃ t, exec (.seImm x nn) s = .next t ∧ t.reg 0xF = s.reg 0xF ∧
      t.pc = if s.reg x = nn then s.pc + 4 else s.pc + 2) ∧
    (∃ t, exec (.sneImm x nn) s = .next t ∧ t.reg 0xF = s.reg 0xF ∧
      t.pc = if s.reg x ≠ nn then s.pc + 4 else s.pc + 2) ∧
    (∃ t, exec (.seReg x y) s = .next t ∧ t.reg 0xF = s.reg 0xF ∧
      t.pc = if s.reg x = s.reg y then s.pc + 4 else s.pc + 2) ∧
    (∃ t, exec (.sneReg x y) s = .next t ∧ t.reg 0xF = s.reg 0xF ∧
      t.pc = if s.reg x ≠ s.reg y then s.pc + 4 else s.pc + 2)

/-- The key skips test bit V[X] of the key snapshot; V[X] > 0xF halts the machine with KeyIndexOutOfRange and changes nothing
else (R111, R112, R113, R121; the fault is the spec's decision D7, log 7, its effect D6; the halted next state is the model's
form, log 4). -/
def Obligations.KeySkipsTestTheSnapshot : Prop :=
  ∀ (x : Nibble) (s : State),
    ((s.reg x).toNat ≤ 0xF →
      (∃ t, exec (.skp x) s = .next t ∧
        t.pc = if s.keys.getLsbD (s.reg x).toNat = true then s.pc + 4 else s.pc + 2) ∧
      (∃ t, exec (.sknp x) s = .next t ∧
        t.pc = if s.keys.getLsbD (s.reg x).toNat = false then s.pc + 4 else s.pc + 2)) ∧
    (0xF < (s.reg x).toNat →
      HaltsWith (.skp x) s (.keyIndexOutOfRange (s.reg x) s.pc) ∧
      HaltsWith (.sknp x) s (.keyIndexOutOfRange (s.reg x) s.pc))

/- ALU -/

/-- 6XNN loads NN, 8XY0 copies V[Y], CXNN loads rnd AND NN; none of them writes VF but as its destination
(R86, R88, R96). -/
def Obligations.LoadsOfConstantsCopiesAndRandomBytes : Prop :=
  ∀ (x y : Nibble) (nn : Byte) (s : State),
    Completes (.ldImm x nn) s (fun t => t.reg x = nn ∧ (x ≠ 0xF → t.reg 0xF = s.reg 0xF)) ∧
    Completes (.ldReg x y) s (fun t => t.reg x = s.reg y ∧ (x ≠ 0xF → t.reg 0xF = s.reg 0xF)) ∧
    Completes (.rnd x nn) s (fun t => t.reg x = s.rnd &&& nn ∧ (x ≠ 0xF → t.reg 0xF = s.reg 0xF))

/-- 7XNN adds NN modulo 256 without a carry; 8XY1 and 8XY2 are bitwise OR and AND; none of them writes VF as a flag
(R87, R89, R90). -/
def Obligations.AddImmediateOrAndWithoutFlags : Prop :=
  ∀ (x y : Nibble) (nn : Byte) (s : State),
    Completes (.addImm x nn) s
      (fun t => (t.reg x).toNat = ((s.reg x).toNat + nn.toNat) % 0x100 ∧ (x ≠ 0xF → t.reg 0xF = s.reg 0xF)) ∧
    Completes (.orReg x y) s (fun t => t.reg x = s.reg x ||| s.reg y ∧ (x ≠ 0xF → t.reg 0xF = s.reg 0xF)) ∧
    Completes (.andReg x y) s (fun t => t.reg x = s.reg x &&& s.reg y ∧ (x ≠ 0xF → t.reg 0xF = s.reg 0xF))

/-- 8XY4: V[X] is the sum modulo 256 whatever X and Y are, and VF the carry unless X = 0xF (R91; X or Y = 0xF rests on the
spec's decision D2, log 5). -/
def Obligations.AddSetsTheCarry : Prop :=
  ∀ (x y : Nibble) (s : State),
    Completes (.addReg x y) s fun t =>
      (t.reg x).toNat = ((s.reg x).toNat + (s.reg y).toNat) % 0x100 ∧
      (x ≠ 0xF → t.reg 0xF = if 0xFF < (s.reg x).toNat + (s.reg y).toNat then 1 else 0)

/-- 8XY5: with f = 1 if V[X] > V[Y] strictly, else 0, every case of X and Y, VF among them (R92; X or Y = 0xF rests on the
spec's decision D2, log 5). -/
def Obligations.SubtractSetsTheStrictFlag : Prop :=
  ∀ (x y : Nibble) (s : State) (f : Byte), (f = if (s.reg y).toNat < (s.reg x).toNat then 1 else 0) →
    Completes (.sub x y) s fun t =>
      (x ≠ 0xF → t.reg 0xF = f) ∧
      (x ≠ 0xF → y ≠ 0xF → t.reg x = s.reg x - s.reg y) ∧
      (x = 0xF → y ≠ 0xF → t.reg 0xF = f - s.reg y) ∧
      (x ≠ 0xF → y = 0xF → t.reg x = s.reg x - f) ∧
      (x = 0xF → y = 0xF → t.reg 0xF = 0)

/-- 8XY7: with f = 1 if V[Y] ≥ V[X], else 0, every case of X and Y, VF among them (R94; X or Y = 0xF rests on the spec's
decision D2, log 5). -/
def Obligations.ReversedSubtractSetsTheNoBorrowFlag : Prop :=
  ∀ (x y : Nibble) (s : State) (f : Byte), (f = if (s.reg x).toNat ≤ (s.reg y).toNat then 1 else 0) →
    Completes (.subn x y) s fun t =>
      (x ≠ 0xF → t.reg 0xF = f) ∧
      (x ≠ 0xF → y ≠ 0xF → t.reg x = s.reg y - s.reg x) ∧
      (x = 0xF → y ≠ 0xF → t.reg 0xF = s.reg y - f) ∧
      (x ≠ 0xF → y = 0xF → t.reg x = f - s.reg x) ∧
      (x = 0xF → y = 0xF → t.reg 0xF = 0)

/-- 8XY6 and 8XYE shift V[X] by one, the bit shifted out into VF, and ignore Y; with X = 0xF the flag itself is shifted, so VF
ends 0, or 0 or 2 (R73, R93, R95; X = 0xF rests on the spec's decision D2, log 5). -/
def Obligations.ShiftsMoveTheLostBitIntoTheFlag : Prop :=
  ∀ (x y : Nibble) (s : State),
    (Completes (.shr x y) s fun t =>
      (x ≠ 0xF → (t.reg x).toNat = (s.reg x).toNat / 2 ∧ (t.reg 0xF).toNat = (s.reg x).toNat % 2) ∧
      (x = 0xF → t.reg 0xF = 0)) ∧
    (Completes (.shl x y) s fun t =>
      (x ≠ 0xF → (t.reg x).toNat = (s.reg x).toNat * 2 % 0x100 ∧ (t.reg 0xF).toNat = (s.reg x).toNat / 0x80) ∧
      (x = 0xF → (t.reg 0xF).toNat = (s.reg 0xF).toNat / 0x80 * 2)) ∧
    (∀ y', exec (.shr x y) s = exec (.shr x y') s ∧ exec (.shl x y) s = exec (.shl x y') s)

/- Index register and memory -/

/-- ANNN sets I to NNN; FX1E adds V[X] modulo 0x1000; FX29 sets I to 0x050 + 5·V[X] (R98, R99, R100; masking and the whole
digit are the spec's decisions D13 and D14, logs 13 and 14). -/
def Obligations.IndexInstructionsSetTheIndex : Prop :=
  ∀ (x : Nibble) (nnn : Addr) (s : State),
    Completes (.ldI nnn) s (fun t => t.iReg.toNat = nnn.toNat) ∧
    Completes (.addI x) s (fun t => t.iReg.toNat = (s.iReg.toNat + (s.reg x).toNat) % 0x1000) ∧
    Completes (.ldF x) s (fun t => t.iReg.toNat = 0x050 + 5 * (s.reg x).toNat)

/-- FX33 stores the hundreds, tens and ones of V[X] at I, I + 1, I + 2, and they recombine to V[X]; I and VF are unchanged;
with I + 2 > 0xFFF it halts with AddressOutOfBounds and changes nothing else (R97, R101, R121; the effect of a fault is the
spec's decision D6, the halted next state the model's form, log 4; OutOfRangeBlockAccessHalts says which address is recorded). -/
def Obligations.BcdStoresTheDecimalDigits : Prop :=
  ∀ (x : Nibble) (s : State),
    (s.iReg.toNat + 2 ≤ 0xFFF →
      Completes (.ldB x) s fun t =>
        (t.mem.read s.iReg.toNat).toNat = (s.reg x).toNat / 100 ∧
        (t.mem.read (s.iReg.toNat + 1)).toNat = (s.reg x).toNat / 10 % 10 ∧
        (t.mem.read (s.iReg.toNat + 2)).toNat = (s.reg x).toNat % 10 ∧
        (t.mem.read s.iReg.toNat).toNat * 100 + (t.mem.read (s.iReg.toNat + 1)).toNat * 10 +
          (t.mem.read (s.iReg.toNat + 2)).toNat = (s.reg x).toNat ∧
        t.iReg = s.iReg ∧ t.reg 0xF = s.reg 0xF) ∧
    (0xFFF < s.iReg.toNat + 2 → ∃ a, HaltsWith (.ldB x) s (.addressOutOfBounds a .write s.pc))

/-- FX55 stores V0..V[X] at I .. I + X; I and VF are unchanged; with I + X > 0xFFF it halts with AddressOutOfBounds and
changes nothing else (R97, R102, R121; that I is unchanged is the rule of frames R12, D5, log 20; the effect of a fault is the
spec's decision D6, the halted next state the model's form, log 4; OutOfRangeBlockAccessHalts says which address is recorded). -/
def Obligations.StoreWritesTheRegisterBlock : Prop :=
  ∀ (x : Nibble) (s : State),
    (s.iReg.toNat + x.toNat ≤ 0xFFF →
      Completes (.storeRegs x) s fun t =>
        (∀ k : Nibble, k.toNat ≤ x.toNat → t.mem.read (s.iReg.toNat + k.toNat) = s.reg k) ∧
        t.iReg = s.iReg ∧ t.reg 0xF = s.reg 0xF) ∧
    (0xFFF < s.iReg.toNat + x.toNat → ∃ a, HaltsWith (.storeRegs x) s (.addressOutOfBounds a .write s.pc))

/-- FX65 loads V0..V[X] from I .. I + X and leaves I at I + X + 1, not masked (R103; no mask is the spec's decision D13, log 13). -/
def Obligations.LoadReadsTheRegisterBlock : Prop :=
  ∀ (x : Nibble) (s : State), s.iReg.toNat + x.toNat ≤ 0xFFF →
    Completes (.loadRegs x) s fun t =>
      (∀ k : Nibble, k.toNat ≤ x.toNat → t.reg k = s.mem.read (s.iReg.toNat + k.toNat)) ∧
      t.iReg.toNat = s.iReg.toNat + x.toNat + 1

/-- An access to `count` bytes at I that passes 0xFFF halts with AddressOutOfBounds at the smallest I + k above 0xFFF, for
each of FX33, FX55, FX65 and DXYN with N > 0 (R97, R105, R121; the recorded address and the effect of a fault are the spec's
decision D6; the halted next state is the model's form, log 4). -/
def Obligations.OutOfRangeBlockAccessHalts : Prop :=
  ∀ (s : State) (x y : Nibble) (n : Nat) (i : Instr) (count : Nat) (access : Access),
    (i = .ldB x ∧ count = 3 ∧ access = .write) ∨ (i = .storeRegs x ∧ count = x.toNat + 1 ∧ access = .write) ∨
      (i = .loadRegs x ∧ count = x.toNat + 1 ∧ access = .read) ∨ (i = .drw x y n ∧ count = n ∧ access = .read) →
    0 < count → 0xFFF < s.iReg.toNat + count - 1 →
    ∃ a k, HaltsWith i s (.addressOutOfBounds a access s.pc) ∧ 0xFFF < a ∧ k < count ∧ a = s.iReg.toNat + k ∧
      ∀ j, j < count → 0xFFF < s.iReg.toNat + j → a ≤ s.iReg.toNat + j

/-- Loading a block FX55 stored, from the same I and whatever the registers have become, gives the stored registers back
(R102, R103). -/
def Obligations.StoreThenLoadRestoresTheRegisters : Prop :=
  ∀ (x : Nibble) (s : State) (w : Vector Byte 16), s.iReg.toNat + x.toNat ≤ 0xFFF →
    ∃ t u, exec (.storeRegs x) s = .next t ∧ exec (.loadRegs x) { t with v := w } = .next u ∧
      ∀ k : Nibble, k.toNat ≤ x.toNat → u.reg k = s.reg k

/-- A byte of memory reads as the byte last written there, and a write changes only the addressed byte (R52). -/
def Obligations.ReadReturnsTheLastWrite : Prop :=
  ∀ (m : Memory) (a b : Nat) (v w : Byte),
    (m.write a v).read a = v ∧ (b ≠ a → (m.write a v).read b = m.read b) ∧
    ((m.write a v).write a w).read a = w

/-- Self-modifying code takes effect at the next step: each byte that FX33 or FX55 stores is the byte fetched at its address,
as the high or the low byte of the instruction word, in the next step and in every later one until a step stores to that
address again (R47, R56, R143). -/
def Obligations.StoredCodeIsFetchedNext : Prop :=
  ∀ (s : State) (x : Nibble) (stored : List Byte), s.status = .run →
    (s.nextInstr = some (.ldB x) ∧ stored = bcdDigits (s.reg x)) ∨
      (s.nextInstr = some (.storeRegs x) ∧ stored = s.firstRegs (x.toNat + 1)) →
    s.iReg.toNat + stored.length ≤ 0x1000 →
    ∃ t, step s = .next t ∧ t.status = .run ∧
      ∀ (k n : Nat) (b : Byte) (u : State), stored[k]? = some b →
        RunsWithoutStoreTo (s.iReg.toNat + k) n t u → u.pc.toNat ≤ 0xFFE →
        ∃ op, u.fetch = .ok op ∧ (u.pc.toNat = s.iReg.toNat + k → firstByte op = b) ∧
          (u.pc.toNat + 1 = s.iReg.toNat + k → secondByte op = b)

/- Display -/

/-- 00E0 turns every pixel off and raises redraw; VF is unchanged (R104). -/
def Obligations.ClearTurnsEveryPixelOff : Prop :=
  ∀ s : State, Completes .cls s fun t =>
    (∀ x y, t.disp.pixel x y = false) ∧ t.redraw = true ∧ t.reg 0xF = s.reg 0xF

/-- DXYN toggles exactly the pixels under set sprite bits, wrapping per pixel; VF ends 1 exactly when one of them was on, else
0; redraw is raised whatever was drawn (R105, R106, R107, R108, R110; the sampling of the operands is the spec's decision D3,
log 6). -/
def Obligations.DrawXorsTheSpriteAndDetectsCollision : Prop :=
  ∀ (x y : Nibble) (n : Nat) (s : State), n ≤ 15 → (n = 0 ∨ s.iReg.toNat + n - 1 ≤ 0xFFF) →
    Completes (.drw x y n) s fun t =>
      (∀ px py, s.spriteAt x y n px py → t.disp.pixel px py = !(s.disp.pixel px py)) ∧
      (∀ px py, ¬ s.spriteAt x y n px py → t.disp.pixel px py = s.disp.pixel px py) ∧
      (t.reg 0xF = 1 ∨ t.reg 0xF = 0) ∧
      (t.reg 0xF = 1 ↔ ∃ px py, s.spriteAt x y n px py ∧ s.disp.pixel px py = true) ∧
      t.redraw = true

/-- Drawing the same sprite twice at the same place restores the display, and the second draw sets VF exactly when a set
sprite bit fell on a pixel that was off at first (R109, C3). X and Y other than 0xF: the first draw writes VF. -/
def Obligations.DrawingTwiceRestoresTheDisplay : Prop :=
  ∀ (x y : Nibble) (n : Nat) (s : State), x ≠ 0xF → y ≠ 0xF → n ≤ 15 →
    (n = 0 ∨ s.iReg.toNat + n - 1 ≤ 0xFFF) →
    ∃ t u, exec (.drw x y n) s = .next t ∧ exec (.drw x y n) t = .next u ∧ u.disp = s.disp ∧
      (u.reg 0xF = 1 ↔ ∃ px py, s.spriteAt x y n px py ∧ s.disp.pixel px py = false)

/- Timers and keys -/

/-- FX07 reads DT as it is before the tick; FX15 and FX18 write DT and ST (R114, R116, R117). -/
def Obligations.TimerInstructionsMoveTheTimers : Prop :=
  ∀ (x : Nibble) (s : State),
    Completes (.ldVxDt x) s (fun t => t.reg x = s.dt) ∧
    Completes (.ldDtVx x) s (fun t => t.dt = s.reg x) ∧
    Completes (.ldStVx x) s (fun t => t.st = s.reg x)

/-- FX0A puts the lowest pressed key code in V[X] and advances; with no key pressed it completes with pc and V[X] unchanged
(R115, R131; the lowest code is the spec's decision D8, log 8). -/
def Obligations.KeyWaitTakesTheLowestKey : Prop :=
  ∀ (x : Nibble) (s : State),
    (s.keys = 0 → exec (.ldVxK x) s = .next s) ∧
    (∀ k, k < 16 → s.keys.getLsbD k = true → (∀ j, j < k → s.keys.getLsbD j = false) →
      Completes (.ldVxK x) s fun t => (t.reg x).toNat = k)

/- Frames (R12: state a rule does not name is unchanged; the spec's decision D5, log 20) -/

/-- The instructions whose one result is V[X] change no other register and nothing else but pc. -/
def Obligations.FrameOfRegisterInstructions : Prop :=
  ∀ (x y : Nibble) (nn : Byte) (i : Instr) (s t : State),
    i ∈ [.ldImm x nn, .addImm x nn, .rnd x nn, .ldReg x y, .orReg x y, .andReg x y, .ldVxDt x, .ldVxK x] →
    exec i s = .next t → RegsKeptBut x s t ∧ KeepsBut [.regs, .pc] s t

/-- The ALU instructions with a flag change no register but V[X] and VF, and nothing else but pc. -/
def Obligations.FrameOfFlagInstructions : Prop :=
  ∀ (x y : Nibble) (i : Instr) (s t : State), i ∈ [.addReg x y, .sub x y, .shr x y, .subn x y, .shl x y] →
    exec i s = .next t → (∀ r, r ≠ x → r ≠ 0xF → t.reg r = s.reg r) ∧ KeepsBut [.regs, .pc] s t

/-- Jumps and skips change pc only; the call and the return change pc, SP and, for the call, the one entry pushed
(a form that halts the machine is covered by its own statement). -/
def Obligations.FrameOfControlTransfers : Prop :=
  ∀ (x y : Nibble) (nn : Byte) (nnn : Addr) (i : Instr) (s t : State), t.status = s.status → exec i s = .next t →
    (i ∈ [.jp nnn, .jpV0 nnn, .seImm x nn, .sneImm x nn, .seReg x y, .sneReg x y, .skp x, .sknp x] →
      KeepsBut [.pc] s t) ∧
    (i ∈ [.ret, .call nnn] → KeepsBut [.pc, .stack] s t ∧ ∀ k, k ≠ s.sp.val → t.stack[k]? = s.stack[k]?)

/-- ANNN, FX1E and FX29 change I and pc only; FX15 changes DT and pc only, FX18 ST and pc only. -/
def Obligations.FrameOfIndexAndTimerWrites : Prop :=
  ∀ (x : Nibble) (nnn : Addr) (i : Instr) (s t : State), exec i s = .next t →
    (i ∈ [.ldI nnn, .addI x, .ldF x] → KeepsBut [.index, .pc] s t) ∧
    (i = .ldDtVx x → KeepsBut [.delay, .pc] s t) ∧
    (i = .ldStVx x → KeepsBut [.sound, .pc] s t)

/-- FX33 and FX55 change no byte outside I .. I + 2 and I .. I + X, and nothing else but pc; I is unchanged. -/
def Obligations.FrameOfStores : Prop :=
  ∀ (x : Nibble) (i : Instr) (s t : State), t.status = s.status → exec i s = .next t →
    (i = .ldB x → MemoryKeptOutside s.iReg.toNat 3 s t ∧ KeepsBut [.memory, .pc] s t) ∧
    (i = .storeRegs x → MemoryKeptOutside s.iReg.toNat (x.toNat + 1) s t ∧ KeepsBut [.memory, .pc] s t)

/-- FX65 changes V0..V[X], I and pc only; 00E0 changes the display, redraw and pc only; DXYN these and VF. -/
def Obligations.FrameOfBlockLoadAndDisplay : Prop :=
  ∀ (x y : Nibble) (n : Nat) (i : Instr) (s t : State), t.status = s.status → exec i s = .next t →
    (i = .loadRegs x → (∀ r : Nibble, x.toNat < r.toNat → t.reg r = s.reg r) ∧ KeepsBut [.regs, .index, .pc] s t) ∧
    (i = .cls → KeepsBut [.display, .redraw, .pc] s t) ∧
    (i = .drw x y n → RegsKeptBut 0xF s t ∧ KeepsBut [.regs, .display, .redraw, .pc] s t)

/- Host interface -/

/-- After `init()`, in every status: V0–VF, I, SP, the stack, the timers and redraw 0, pc = 0x200, the display off, memory 0
but for FONT at 0x050–0x09F, status Init (R39, R135, R136, R141; the zeros of V, the stack, redraw and the rest of memory are
the spec's decision D4, log 2). -/
def Obligations.InitSetsTheResetValues : Prop :=
  ∀ s t : State, (t = State.reset ∨ t = s.init) →
    (∀ r, t.reg r = 0) ∧ t.iReg = 0 ∧ t.pc = 0x200 ∧ t.sp.val = 0 ∧
    (∀ k, k < 16 → t.stack[k]? = some 0) ∧ t.dt = 0 ∧ t.st = 0 ∧ (∀ x y, t.disp.pixel x y = false) ∧
    t.redraw = false ∧ t.status = .init ∧
    (∀ j, j < 80 → t.mem.read (0x050 + j) = Config.font j) ∧
    (∀ a, a < 0x050 ∨ 0x0A0 ≤ a → t.mem.read a = 0)

/-- `loadProgram` in Init places byte j at 0x200 + j, changes no other byte and sets status Run; more than 3584 bytes are
answered with MalformedRom; in any other status it is refused (R132, R137; the spec's decision D18, log 15). -/
def Obligations.LoadProgramPlacesTheBytes : Prop :=
  ∀ (s : State) (bytes : List Byte),
    (s.status = .init → bytes.length ≤ 3584 →
      ∃ t, s.loadProgram bytes = .next t ∧ t.status = .run ∧
        (∀ j b, bytes[j]? = some b → t.mem.read (0x200 + j) = b) ∧
        MemoryKeptOutside 0x200 bytes.length s t ∧ KeepsBut [.memory, .status] s t) ∧
    (s.status = .init → 3584 < bytes.length → s.loadProgram bytes = .fault (.malformedRom bytes.length)) ∧
    (s.status ≠ .init → s.loadProgram bytes = .refused .loadOutOfOrder)

/-- A jump to itself changes DT and ST only (and takes the next input); with both 0 nothing else changes (R147). -/
def Obligations.JumpToItselfOnlyTicks : Prop :=
  ∀ (s : State) (nnn : Addr), s.status = .run → s.nextInstr = some (.jp nnn) → nnn.toNat = s.pc.toNat →
    step s = .next s.tick.nextInput ∧ (s.dt = 0 → s.st = 0 → step s = .next s.nextInput)
end

