-- ==== Sys2Proof/Laws/Decode.lean ====
section
/-! SUPPORT. Laws of the decoder: a word is made of its fields, the fields of an encoded word are its operands, and masking a word masks its fields. -/

namespace Sys2Proof

/-- A word is its four nibbles (R59). -/
theorem encXYN_fields (op : Word) : encXYN (opFamily op) (opX op) (opY op) (opN op) = op := by
  apply BitVec.eq_of_getLsbD_eq
  intro i hi
  simp only [encXYN, opFamily, opX, opY, opN, BitVec.getLsbD_or, BitVec.getLsbD_shiftLeft, BitVec.getLsbD_setWidth,
    BitVec.getLsbD_extractLsb']
  have : i ∈ List.range 16 := by simpa using hi
  revert this
  simp only [List.range, List.range.loop, List.mem_cons, List.not_mem_nil, or_false]
  rintro (rfl | rfl | rfl | rfl | rfl | rfl | rfl | rfl | rfl | rfl | rfl | rfl | rfl | rfl | rfl | rfl) <;> simp

/-- A word is its family, X and NN (R59, byte view). -/
theorem encXNN_fields (op : Word) : encXNN (opFamily op) (opX op) (opNN op) = op := by
  apply BitVec.eq_of_getLsbD_eq
  intro i hi
  simp only [encXNN, opFamily, opX, opNN, BitVec.getLsbD_or, BitVec.getLsbD_shiftLeft, BitVec.getLsbD_setWidth,
    BitVec.getLsbD_extractLsb']
  have : i ∈ List.range 16 := by simpa using hi
  revert this
  simp only [List.range, List.range.loop, List.mem_cons, List.not_mem_nil, or_false]
  rintro (rfl | rfl | rfl | rfl | rfl | rfl | rfl | rfl | rfl | rfl | rfl | rfl | rfl | rfl | rfl | rfl) <;> simp

/-- A word is its family and NNN (R59, address view). -/
theorem encNNN_fields (op : Word) : encNNN (opFamily op) (opNNN op) = op := by
  apply BitVec.eq_of_getLsbD_eq
  intro i hi
  simp only [encNNN, opFamily, opNNN, BitVec.getLsbD_or, BitVec.getLsbD_shiftLeft, BitVec.getLsbD_setWidth,
    BitVec.getLsbD_extractLsb']
  have : i ∈ List.range 16 := by simpa using hi
  revert this
  simp only [List.range, List.range.loop, List.mem_cons, List.not_mem_nil, or_false]
  rintro (rfl | rfl | rfl | rfl | rfl | rfl | rfl | rfl | rfl | rfl | rfl | rfl | rfl | rfl | rfl | rfl) <;> simp

/-- A word is its two bytes in memory order (R47). -/
@[simp] theorem wordOfBytes_bytes (op : Word) : wordOfBytes (firstByte op) (secondByte op) = op := by
  apply BitVec.eq_of_getLsbD_eq
  intro i hi
  simp only [wordOfBytes, firstByte, secondByte, BitVec.getLsbD_or, BitVec.getLsbD_shiftLeft, BitVec.getLsbD_setWidth,
    BitVec.getLsbD_extractLsb']
  have : i ∈ List.range 16 := by simpa using hi
  revert this
  simp only [List.range, List.range.loop, List.mem_cons, List.not_mem_nil, or_false]
  rintro (rfl | rfl | rfl | rfl | rfl | rfl | rfl | rfl | rfl | rfl | rfl | rfl | rfl | rfl | rfl | rfl) <;> simp

@[simp] theorem firstByte_wordOfBytes (a b : Byte) : firstByte (wordOfBytes a b) = a := by
  apply BitVec.eq_of_getLsbD_eq
  intro i hi
  simp only [wordOfBytes, firstByte, BitVec.getLsbD_or, BitVec.getLsbD_shiftLeft, BitVec.getLsbD_setWidth,
    BitVec.getLsbD_extractLsb']
  have : i = 0 ∨ i = 1 ∨ i = 2 ∨ i = 3 ∨ i = 4 ∨ i = 5 ∨ i = 6 ∨ i = 7 := by omega
  rcases this with rfl|rfl|rfl|rfl|rfl|rfl|rfl|rfl <;> simp

@[simp] theorem secondByte_wordOfBytes (a b : Byte) : secondByte (wordOfBytes a b) = b := by
  apply BitVec.eq_of_getLsbD_eq
  intro i hi
  simp only [wordOfBytes, secondByte, BitVec.getLsbD_or, BitVec.getLsbD_shiftLeft, BitVec.getLsbD_setWidth,
    BitVec.getLsbD_extractLsb']
  have : i = 0 ∨ i = 1 ∨ i = 2 ∨ i = 3 ∨ i = 4 ∨ i = 5 ∨ i = 6 ∨ i = 7 := by omega
  rcases this with rfl|rfl|rfl|rfl|rfl|rfl|rfl|rfl <;> simp

@[simp] theorem opFamily_encXYN (f x y n : Nibble) : opFamily (encXYN f x y n) = f := by
  apply BitVec.eq_of_getLsbD_eq
  intro i hi
  simp only [encXYN, opFamily, BitVec.getLsbD_or, BitVec.getLsbD_shiftLeft, BitVec.getLsbD_setWidth,
    BitVec.getLsbD_extractLsb']
  have : i = 0 ∨ i = 1 ∨ i = 2 ∨ i = 3 := by omega
  rcases this with rfl|rfl|rfl|rfl <;> simp

@[simp] theorem opX_encXYN (f x y n : Nibble) : opX (encXYN f x y n) = x := by
  apply BitVec.eq_of_getLsbD_eq
  intro i hi
  simp only [encXYN, opX, BitVec.getLsbD_or, BitVec.getLsbD_shiftLeft, BitVec.getLsbD_setWidth,
    BitVec.getLsbD_extractLsb']
  have : i = 0 ∨ i = 1 ∨ i = 2 ∨ i = 3 := by omega
  rcases this with rfl|rfl|rfl|rfl <;> simp

@[simp] theorem opY_encXYN (f x y n : Nibble) : opY (encXYN f x y n) = y := by
  apply BitVec.eq_of_getLsbD_eq
  intro i hi
  simp only [encXYN, opY, BitVec.getLsbD_or, BitVec.getLsbD_shiftLeft, BitVec.getLsbD_setWidth,
    BitVec.getLsbD_extractLsb']
  have : i = 0 ∨ i = 1 ∨ i = 2 ∨ i = 3 := by omega
  rcases this with rfl|rfl|rfl|rfl <;> simp

@[simp] theorem opN_encXYN (f x y n : Nibble) : opN (encXYN f x y n) = n := by
  apply BitVec.eq_of_getLsbD_eq
  intro i hi
  simp only [encXYN, opN, BitVec.getLsbD_or, BitVec.getLsbD_shiftLeft, BitVec.getLsbD_setWidth,
    BitVec.getLsbD_extractLsb']
  have : i = 0 ∨ i = 1 ∨ i = 2 ∨ i = 3 := by omega
  rcases this with rfl|rfl|rfl|rfl <;> simp

@[simp] theorem opFamily_encXNN (f x : Nibble) (nn : Byte) : opFamily (encXNN f x nn) = f := by
  apply BitVec.eq_of_getLsbD_eq
  intro i hi
  simp only [encXNN, opFamily, BitVec.getLsbD_or, BitVec.getLsbD_shiftLeft, BitVec.getLsbD_setWidth,
    BitVec.getLsbD_extractLsb']
  have : i = 0 ∨ i = 1 ∨ i = 2 ∨ i = 3 := by omega
  rcases this with rfl|rfl|rfl|rfl <;> simp

@[simp] theorem opX_encXNN (f x : Nibble) (nn : Byte) : opX (encXNN f x nn) = x := by
  apply BitVec.eq_of_getLsbD_eq
  intro i hi
  simp only [encXNN, opX, BitVec.getLsbD_or, BitVec.getLsbD_shiftLeft, BitVec.getLsbD_setWidth,
    BitVec.getLsbD_extractLsb']
  have : i = 0 ∨ i = 1 ∨ i = 2 ∨ i = 3 := by omega
  rcases this with rfl|rfl|rfl|rfl <;> simp

@[simp] theorem opNN_encXNN (f x : Nibble) (nn : Byte) : opNN (encXNN f x nn) = nn := by
  apply BitVec.eq_of_getLsbD_eq
  intro i hi
  simp only [encXNN, opNN, BitVec.getLsbD_or, BitVec.getLsbD_shiftLeft, BitVec.getLsbD_setWidth,
    BitVec.getLsbD_extractLsb']
  have : i = 0 ∨ i = 1 ∨ i = 2 ∨ i = 3 ∨ i = 4 ∨ i = 5 ∨ i = 6 ∨ i = 7 := by omega
  rcases this with rfl|rfl|rfl|rfl|rfl|rfl|rfl|rfl <;> simp

@[simp] theorem opFamily_encNNN (f : Nibble) (nnn : Addr) : opFamily (encNNN f nnn) = f := by
  apply BitVec.eq_of_getLsbD_eq
  intro i hi
  simp only [encNNN, opFamily, BitVec.getLsbD_or, BitVec.getLsbD_shiftLeft, BitVec.getLsbD_setWidth,
    BitVec.getLsbD_extractLsb']
  have : i = 0 ∨ i = 1 ∨ i = 2 ∨ i = 3 := by omega
  rcases this with rfl|rfl|rfl|rfl <;> simp

@[simp] theorem opNNN_encNNN (f : Nibble) (nnn : Addr) : opNNN (encNNN f nnn) = nnn := by
  apply BitVec.eq_of_getLsbD_eq
  intro i hi
  simp only [encNNN, opNNN, BitVec.getLsbD_or, BitVec.getLsbD_shiftLeft, BitVec.getLsbD_setWidth,
    BitVec.getLsbD_extractLsb']
  have : i = 0 ∨ i = 1 ∨ i = 2 ∨ i = 3 ∨ i = 4 ∨ i = 5 ∨ i = 6 ∨ i = 7 ∨ i = 8 ∨ i = 9 ∨ i = 10 ∨ i = 11 := by omega
  rcases this with rfl|rfl|rfl|rfl|rfl|rfl|rfl|rfl|rfl|rfl|rfl|rfl <;> simp

/-- Masking a word masks each of its fields. -/
theorem encXYN_and (f x y n f' x' y' n' : Nibble) :
    encXYN f x y n &&& encXYN f' x' y' n' = encXYN (f &&& f') (x &&& x') (y &&& y') (n &&& n') := by
  apply BitVec.eq_of_getLsbD_eq
  intro i hi
  simp only [encXYN, BitVec.getLsbD_or, BitVec.getLsbD_and, BitVec.getLsbD_shiftLeft, BitVec.getLsbD_setWidth]
  have : i ∈ List.range 16 := by simpa using hi
  revert this
  simp only [List.range, List.range.loop, List.mem_cons, List.not_mem_nil, or_false]
  rintro (rfl | rfl | rfl | rfl | rfl | rfl | rfl | rfl | rfl | rfl | rfl | rfl | rfl | rfl | rfl | rfl) <;> simp

theorem encXYN_inj {f x y n f' x' y' n' : Nibble} :
    encXYN f x y n = encXYN f' x' y' n' ↔ f = f' ∧ x = x' ∧ y = y' ∧ n = n' := by
  refine ⟨fun h => ⟨?_, ?_, ?_, ?_⟩, ?_⟩
  · simpa using congrArg opFamily h
  · simpa using congrArg opX h
  · simpa using congrArg opY h
  · simpa using congrArg opN h
  · rintro ⟨rfl, rfl, rfl, rfl⟩; rfl

/-- Decoding the two bytes of a word decodes the word. -/
@[simp] theorem decodeBytes_bytes (op : Word) : decodeBytes (firstByte op) (secondByte op) = decode op := by
  simp [decodeBytes]

/-- The family and the address view under the mask 0xF000. -/
theorem encNNN_and_family (f : Nibble) (nnn : Addr) : encNNN f nnn &&& 0xF000#16 = encNNN f 0 := by
  apply BitVec.eq_of_getLsbD_eq
  intro i hi
  simp only [encNNN, BitVec.getLsbD_or, BitVec.getLsbD_and, BitVec.getLsbD_shiftLeft, BitVec.getLsbD_setWidth]
  have : i ∈ List.range 16 := by simpa using hi
  revert this
  simp only [List.range, List.range.loop, List.mem_cons, List.not_mem_nil, or_false]
  rintro (rfl | rfl | rfl | rfl | rfl | rfl | rfl | rfl | rfl | rfl | rfl | rfl | rfl | rfl | rfl | rfl) <;> simp

/-- The byte view under the mask 0xF000. -/
theorem encXNN_and_family (f x : Nibble) (nn : Byte) : encXNN f x nn &&& 0xF000#16 = encXNN f 0 0 := by
  apply BitVec.eq_of_getLsbD_eq
  intro i hi
  simp only [encXNN, BitVec.getLsbD_or, BitVec.getLsbD_and, BitVec.getLsbD_shiftLeft, BitVec.getLsbD_setWidth]
  have : i ∈ List.range 16 := by simpa using hi
  revert this
  simp only [List.range, List.range.loop, List.mem_cons, List.not_mem_nil, or_false]
  rintro (rfl | rfl | rfl | rfl | rfl | rfl | rfl | rfl | rfl | rfl | rfl | rfl | rfl | rfl | rfl | rfl) <;> simp

/-- The byte view under the mask 0xF0FF. -/
theorem encXNN_and_byte (f x : Nibble) (nn : Byte) : encXNN f x nn &&& 0xF0FF#16 = encXNN f 0 nn := by
  apply BitVec.eq_of_getLsbD_eq
  intro i hi
  simp only [encXNN, BitVec.getLsbD_or, BitVec.getLsbD_and, BitVec.getLsbD_shiftLeft, BitVec.getLsbD_setWidth]
  have : i ∈ List.range 16 := by simpa using hi
  revert this
  simp only [List.range, List.range.loop, List.mem_cons, List.not_mem_nil, or_false]
  rintro (rfl | rfl | rfl | rfl | rfl | rfl | rfl | rfl | rfl | rfl | rfl | rfl | rfl | rfl | rfl | rfl) <;> simp

/-- The nibble view under the mask 0xF00F. -/
theorem encXYN_and_last (f x y n : Nibble) : encXYN f x y n &&& 0xF00F#16 = encXYN f 0 0 n := by
  rw [show 0xF00F#16 = encXYN 0xF 0 0 0xF by decide, encXYN_and, encXYN_inj]
  refine ⟨?_, by simp, by simp, ?_⟩ <;> exact BitVec.and_allOnes

/-- The nibble view under the mask 0xF000. -/
theorem encXYN_and_family (f x y n : Nibble) : encXYN f x y n &&& 0xF000#16 = encXYN f 0 0 0 := by
  rw [show 0xF000#16 = encXYN 0xF 0 0 0 by decide, encXYN_and, encXYN_inj]
  exact ⟨BitVec.and_allOnes, by simp, by simp, by simp⟩

end Sys2Proof
end

