-- ==== Sys2Proof/Laws/Display.lean ====
section
/-! SUPPORT. Laws of the sprite engine: flipping a pixel, and drawing as the toggling of a list of distinct pixels (R106–R109). -/

namespace Sys2Proof.Machine

@[simp] theorem Display.pixel_blank (x : Fin 64) (y : Fin 32) : Display.pixel Display.blank x y = false := by
  simp [Display.pixel, Display.blank]

/-- Toggling a pixel changes that pixel only. -/
theorem Display.pixel_flip (d : Display) (x x' : Fin 64) (y y' : Fin 32) :
    Display.pixel (Display.flip d x y) x' y' = (Display.pixel d x' y' ^^ decide (x' = x ∧ y' = y)) := by
  unfold Display.pixel Display.flip
  by_cases hy : y' = y
  · subst hy
    by_cases hx : x' = x
    · simp [hx]
    · simp [hx, show ¬ (x'.val = x.val) from fun h => hx (Fin.ext h)]
  · simp [hy, show ¬ (y.val = y'.val) from fun h => hy (Fin.ext h.symm)]

/-- Two displays with the same pixels are the same display. -/
theorem Display.ext_pixel {d e : Display} (h : ∀ x y, Display.pixel d x y = Display.pixel e x y) : d = e := by
  apply Vector.ext
  intro k hk
  apply BitVec.eq_of_getLsbD_eq
  intro j hj
  simpa [Display.pixel] using h ⟨j, hj⟩ ⟨k, hk⟩

/-- Toggle the pixels of a list in order, noting whether one of them was on. -/
def drawHits (hits : List (Fin 64 × Fin 32)) (p : Display × Bool) : Display × Bool :=
  hits.foldl (fun q h => (q.1.flip h.1 h.2, q.2 || q.1.pixel h.1 h.2)) p

/-- The pixels under the set bits of one sprite byte. -/
def byteHits (x y : Nat) (sprite : Byte) : List (Fin 64 × Fin 32) :=
  ((List.range 8).filter fun b => sprite.getMsbD b).map fun b => (column (x + b), row y)

/-- The pixels under the set bits of a sprite. -/
def spriteHits (x : Nat) : Nat → List Byte → List (Fin 64 × Fin 32)
  | _, [] => []
  | y, sprite :: rest => byteHits x y sprite ++ spriteHits x (y + 1) rest

theorem drawByte_eq (x y : Nat) (sprite : Byte) (p : Display × Bool) :
    drawByte x y sprite p = drawHits (byteHits x y sprite) p := by
  simp [drawByte, drawHits, byteHits, List.foldl_map, List.foldl_filter, drawPixel]

/-- Drawing a sprite toggles the pixels under its set bits. -/
theorem drawRows_eq (x y : Nat) (rows : List Byte) (p : Display × Bool) :
    drawRows x y rows p = drawHits (spriteHits x y rows) p := by
  induction rows generalizing y p with
  | nil => rfl
  | cons sprite rest ih => simp [drawRows, spriteHits, ih, drawByte_eq, drawHits, List.foldl_append]

/-- Toggling distinct pixels: each of them changes, no other does, and a collision is one of them having been on. -/
theorem drawHits_spec (hits : List (Fin 64 × Fin 32)) (h : hits.Nodup) (p : Display × Bool) :
    (∀ x y, (drawHits hits p).1.pixel x y = (p.1.pixel x y ^^ decide ((x, y) ∈ hits))) ∧
      ((drawHits hits p).2 = true ↔ p.2 = true ∨ ∃ c ∈ hits, p.1.pixel c.1 c.2 = true) := by
  induction hits generalizing p with
  | nil => simp [drawHits]
  | cons c hits ih =>
    obtain ⟨hc, hn⟩ := List.nodup_cons.1 h
    obtain ⟨h1, h2⟩ := ih hn (p.1.flip c.1 c.2, p.2 || p.1.pixel c.1 c.2)
    constructor
    · intro x y
      rw [show drawHits (c :: hits) p = drawHits hits (p.1.flip c.1 c.2, p.2 || p.1.pixel c.1 c.2) from rfl, h1,
        Display.pixel_flip]
      by_cases hx : (x, y) = c
      · subst hx; simp [hc]
      · have : ¬ (x = c.1 ∧ y = c.2) := fun hh => hx (Prod.ext hh.1 hh.2)
        simp [hx, this]
    · rw [show drawHits (c :: hits) p = drawHits hits (p.1.flip c.1 c.2, p.2 || p.1.pixel c.1 c.2) from rfl, h2]
      have hne : ∀ d ∈ hits, (p.1.flip c.1 c.2).pixel d.1 d.2 = p.1.pixel d.1 d.2 := by
        intro d hd
        have : ¬ (d.1 = c.1 ∧ d.2 = c.2) := fun hh => hc (by rwa [← Prod.ext hh.1 hh.2])
        simp [Display.pixel_flip, this]
      constructor
      · rintro (h | ⟨d, hd, h⟩)
        · simp only [Bool.or_eq_true] at h
          rcases h with h | h
          · exact .inl h
          · exact .inr ⟨c, by simp, h⟩
        · exact .inr ⟨d, by simp [hd], by rwa [hne d hd] at h⟩
      · rintro (hp | ⟨d, hd, hp⟩)
        · simp [hp]
        · rcases List.mem_cons.1 hd with rfl | hd
          · exact .inl (by simp only [hp, Bool.or_true])
          · exact .inr ⟨d, hd, by rwa [hne d hd]⟩

theorem mem_byteHits {x y : Nat} {sprite : Byte} {c : Fin 64 × Fin 32} :
    c ∈ byteHits x y sprite ↔
      ∃ b, b < 8 ∧ sprite.getLsbD (7 - b) = true ∧ c.1.val = (x + b) % 64 ∧ c.2.val = y % 32 := by
  obtain ⟨cx, cy⟩ := c
  simp only [byteHits, List.mem_map, List.mem_filter, List.mem_range, column, row, Prod.mk.injEq, Fin.ext_iff,
    Fin.val_ofNat, BitVec.getMsbD]
  constructor
  · rintro ⟨b, ⟨hb, hs⟩, hx, hy⟩
    exact ⟨b, hb, by simpa [hb] using hs, hx.symm, hy.symm⟩
  · rintro ⟨b, hb, hs, hx, hy⟩
    exact ⟨b, ⟨hb, by simpa [hb] using hs⟩, hx.symm, hy.symm⟩

/-- The pixels of a sprite are those `SpriteCovers` names (R106, R107). -/
theorem mem_spriteHits {x y : Nat} {rows : List Byte} {c : Fin 64 × Fin 32} :
    c ∈ spriteHits x y rows ↔ SpriteCovers x y (fun r => rows.getD r 0) rows.length c.1 c.2 := by
  induction rows generalizing y with
  | nil => simp [spriteHits, SpriteCovers]
  | cons sprite rest ih =>
    simp only [spriteHits, List.mem_append, mem_byteHits, ih, SpriteCovers]
    constructor
    · rintro (⟨b, hb, hs, hx, hy⟩ | ⟨r, b, hr, hb, hs, hx, hy⟩)
      · exact ⟨0, b, by simp, hb, by simpa using hs, hx, by simpa using hy⟩
      · exact ⟨r + 1, b, by simpa using hr, hb, by simpa using hs, hx, by rw [hy]; congr 1; omega⟩
    · rintro ⟨r, b, hr, hb, hs, hx, hy⟩
      cases r with
      | zero => exact .inl ⟨b, hb, by simpa using hs, hx, by simpa using hy⟩
      | succ r =>
        exact .inr ⟨r, b, by simpa using hr, hb, by simpa using hs, hx, by rw [hy]; congr 1; omega⟩

/-- No sprite of at most 32 rows touches a pixel twice (R109). -/
theorem nodup_spriteHits (x y : Nat) (rows : List Byte) (h : rows.length ≤ 32) : (spriteHits x y rows).Nodup := by
  induction rows generalizing y with
  | nil => simp [spriteHits]
  | cons sprite rest ih =>
    simp only [List.length_cons] at h
    rw [spriteHits, List.nodup_append]
    refine ⟨?_, ih _ (by omega), ?_⟩
    · refine List.Nodup.map_on ?_ (List.nodup_range.filter _)
      intro a ha b hb hab
      simp only [List.mem_filter, List.mem_range] at ha hb
      simp only [column, Prod.mk.injEq, Fin.ext_iff, Fin.val_ofNat, and_true] at hab
      omega
    · intro c hc d hd hcd
      subst hcd
      obtain ⟨b, -, -, -, hy⟩ := mem_byteHits.1 hc
      obtain ⟨r, b', hr, -, -, -, hy'⟩ := mem_spriteHits.1 hd
      omega

end Sys2Proof.Machine
end

