-- ==== Sys2Proof/Laws/Memory.lean ====
section
/-! SUPPORT. Laws of memory: read after write, and that every memory operation keeps the canonical form. -/

namespace Sys2Proof.Machine

/-- Erasing an address leaves every other reading alone and gives that address its reset contents. -/
theorem Memory.read_erase (m : Memory) (a b : Nat) :
    Memory.read (Memory.erase m a) b = if b = a then Memory.background b else Memory.read m b := by
  induction m with
  | nil => simp [Memory.erase, Memory.read]
  | cons c m ih =>
    simp only [Memory.erase] at ih ⊢
    rcases eq_or_ne b a with rfl | hb
    · by_cases hc : c.1 = b <;> simp_all [Memory.read]
    · by_cases hc : c.1 = a
      · simp [hc, ih, hb, Memory.read, hb.symm]
      · simp [hc, ih, hb, Memory.read]

/-- Inserting at an address nothing is listed for: that address reads the byte, every other as before. -/
theorem Memory.read_insert (m : Memory) (a : Nat) (v : Byte) (b : Nat) (h : ∀ c ∈ m, c.1 ≠ a) :
    Memory.read (Memory.insert a v m) b = if b = a then v else Memory.read m b := by
  induction m with
  | nil => simp [Memory.insert, Memory.read, eq_comm]
  | cons c m ih =>
    have hc : c.1 ≠ a := h c (by simp)
    have ih := ih fun d hd => h d (by simp [hd])
    simp only [Memory.insert]
    split
    · by_cases hb : b = a
      · simp [Memory.read, hb]
      · simp [Memory.read, hb, show ¬ a = b from fun h => hb h.symm]
    · by_cases hb : b = a
      · subst hb; simp [Memory.read, ih, hc]
      · simp [Memory.read, ih, hb]

theorem Memory.mem_erase {m : Memory} {a : Nat} {c : Host.Cell} :
    c ∈ Memory.erase m a ↔ c ∈ m ∧ c.1 ≠ a := by simp [Memory.erase]

theorem Memory.mem_insert {m : Memory} {a : Nat} {v : Byte} {c : Host.Cell} :
    c ∈ Memory.insert a v m ↔ c = (a, v) ∨ c ∈ m := by
  induction m with
  | nil => simp [Memory.insert]
  | cons d m ih => simp only [Memory.insert]; split <;> simp [ih]; tauto

/-- Read after write (R52): the byte written at that address, every other address as before. -/
theorem Memory.read_write (m : Memory) (a : Nat) (v : Byte) (b : Nat) :
    Memory.read (Memory.write m a v) b = if b = a then v else Memory.read m b := by
  unfold Memory.write
  split
  · next hv => rw [Memory.read_erase]; by_cases hb : b = a <;> simp [hb, hv]
  · rw [Memory.read_insert _ _ _ _ (fun c hc => (Memory.mem_erase.1 hc).2), Memory.read_erase]
    by_cases hb : b = a <;> simp [hb]

@[simp] theorem Memory.read_write_self (m : Memory) (a : Nat) (v : Byte) :
    Memory.read (Memory.write m a v) a = v := by simp [Memory.read_write]

theorem Memory.read_write_of_ne (m : Memory) {a b : Nat} (v : Byte) (h : b ≠ a) :
    Memory.read (Memory.write m a v) b = Memory.read m b := by simp [Memory.read_write, h]

theorem Memory.wf_iff (m : Memory) :
    Memory.wf m = true ↔ m.Pairwise (fun c d => c.1 < d.1) ∧ ∀ c ∈ m, c.2 ≠ Memory.background c.1 := by
  simp [Memory.wf]

theorem Memory.wf_erase {m : Memory} (a : Nat) (h : Memory.wf m = true) : Memory.wf (Memory.erase m a) = true := by
  rw [Memory.wf_iff] at h ⊢
  exact ⟨h.1.filter _, fun c hc => h.2 c (Memory.mem_erase.1 hc).1⟩

theorem Memory.wf_insert {m : Memory} {a : Nat} {v : Byte} (h : Memory.wf m = true)
    (hv : v ≠ Memory.background a) (hm : ∀ c ∈ m, c.1 ≠ a) : Memory.wf (Memory.insert a v m) = true := by
  rw [Memory.wf_iff] at h ⊢
  refine ⟨?_, fun c hc => ?_⟩
  · obtain ⟨hp, -⟩ := h
    induction m with
    | nil => simp [Memory.insert]
    | cons c m ih =>
      rw [List.pairwise_cons] at hp
      have hca : c.1 ≠ a := hm c (by simp)
      simp only [Memory.insert]
      split
      · next hlt =>
        refine List.pairwise_cons.2 ⟨fun d hd => ?_, List.pairwise_cons.2 hp⟩
        rcases List.mem_cons.1 hd with rfl | hd
        · exact hlt
        · exact Nat.lt_trans hlt (hp.1 d hd)
      · next hle =>
        refine List.pairwise_cons.2 ⟨fun d hd => ?_, ih (fun d hd => hm d (by simp [hd])) hp.2⟩
        rcases Memory.mem_insert.1 hd with rfl | hd
        · simp only; omega
        · exact hp.1 d hd
  · rcases Memory.mem_insert.1 hc with rfl | hc
    · exact hv
    · exact h.2 c hc

/-- A write keeps the canonical form. -/
theorem Memory.wf_write {m : Memory} (a : Nat) (v : Byte) (h : Memory.wf m = true) :
    Memory.wf (Memory.write m a v) = true := by
  unfold Memory.write
  split
  · exact Memory.wf_erase a h
  · next hv => exact Memory.wf_insert (Memory.wf_erase a h) hv fun c hc => (Memory.mem_erase.1 hc).2

theorem Memory.wf_writeBytes {m : Memory} (a : Nat) (bs : List Byte) (h : Memory.wf m = true) :
    Memory.wf (Memory.writeBytes m a bs) = true := by
  induction bs generalizing m a with
  | nil => exact h
  | cons b bs ih => exact ih (a + 1) (Memory.wf_write a b h)

/-- What a write lists was listed before, or is the address written. -/
theorem Memory.mem_write {m : Memory} {a : Nat} {v : Byte} {c : Host.Cell}
    (h : c ∈ Memory.write m a v) : c.1 = a ∨ c ∈ m := by
  unfold Memory.write at h
  split at h
  · exact .inr (Memory.mem_erase.1 h).1
  · rcases Memory.mem_insert.1 h with rfl | h
    · exact .inl rfl
    · exact .inr (Memory.mem_erase.1 h).1

theorem Memory.mem_writeBytes {m : Memory} {a : Nat} {bs : List Byte} {c : Host.Cell}
    (h : c ∈ Memory.writeBytes m a bs) : (a ≤ c.1 ∧ c.1 < a + bs.length) ∨ c ∈ m := by
  induction bs generalizing m a with
  | nil => exact .inr h
  | cons b bs ih =>
    rcases ih h with h | h
    · left; simp; omega
    · rcases Memory.mem_write h with h | h
      · left; simp; omega
      · exact .inr h

/-- Reading after a block write: inside the block the byte stored there, outside it as before. -/
theorem Memory.read_writeBytes (m : Memory) (a : Nat) (bs : List Byte) (b : Nat) :
    Memory.read (Memory.writeBytes m a bs) b =
      if a ≤ b then (bs[b - a]?).getD (Memory.read m b) else Memory.read m b := by
  induction bs generalizing m a with
  | nil => simp [Memory.writeBytes]
  | cons v bs ih =>
    simp only [Memory.writeBytes, ih, Memory.read_write]
    rcases Nat.lt_trichotomy b a with h | rfl | h
    · simp [show ¬ a ≤ b by omega, show ¬ a + 1 ≤ b by omega, show b ≠ a by omega]
    · simp
    · obtain ⟨k, rfl⟩ : ∃ k, b = a + 1 + k := ⟨b - (a + 1), by omega⟩
      simp [show a ≤ a + 1 + k by omega, show a + 1 + k - a = k + 1 by omega, show a + 1 + k ≠ a by omega]

@[simp] theorem Memory.length_readBytes (m : Memory) (a n : Nat) : (Memory.readBytes m a n).length = n := by
  induction n generalizing a with
  | zero => rfl
  | succ n ih => simp [Memory.readBytes, ih]

/-- The k-th byte of a block read is the byte at `a + k`. -/
theorem Memory.getElem_readBytes (m : Memory) (a n k : Nat) (h : k < (Memory.readBytes m a n).length) :
    (Memory.readBytes m a n)[k] = Memory.read m (a + k) := by
  induction n generalizing a k with
  | zero => simp at h
  | succ n ih =>
    cases k with
    | zero => simp [Memory.readBytes]
    | succ k => simp [Memory.readBytes, ih, Nat.add_assoc, Nat.add_comm 1 k]

end Sys2Proof.Machine
end

