-- ==== Sys2Proof/Laws/State.lean ====
section
/-! SUPPORT. One lemma per field per named update of the state, and reading a register after each update: later proofs never unfold a record update. -/

namespace Sys2Proof.Machine

@[simp] theorem State.setReg_mem (s : State) (x : Nibble) (b : Byte) : (s.setReg x b).mem = s.mem := rfl
@[simp] theorem State.setReg_iReg (s : State) (x : Nibble) (b : Byte) : (s.setReg x b).iReg = s.iReg := rfl
@[simp] theorem State.setReg_pc (s : State) (x : Nibble) (b : Byte) : (s.setReg x b).pc = s.pc := rfl
@[simp] theorem State.setReg_sp (s : State) (x : Nibble) (b : Byte) : (s.setReg x b).sp = s.sp := rfl
@[simp] theorem State.setReg_stack (s : State) (x : Nibble) (b : Byte) : (s.setReg x b).stack = s.stack := rfl
@[simp] theorem State.setReg_dt (s : State) (x : Nibble) (b : Byte) : (s.setReg x b).dt = s.dt := rfl
@[simp] theorem State.setReg_st (s : State) (x : Nibble) (b : Byte) : (s.setReg x b).st = s.st := rfl
@[simp] theorem State.setReg_disp (s : State) (x : Nibble) (b : Byte) : (s.setReg x b).disp = s.disp := rfl
@[simp] theorem State.setReg_redraw (s : State) (x : Nibble) (b : Byte) : (s.setReg x b).redraw = s.redraw := rfl
@[simp] theorem State.setReg_status (s : State) (x : Nibble) (b : Byte) : (s.setReg x b).status = s.status := rfl
@[simp] theorem State.setReg_keys (s : State) (x : Nibble) (b : Byte) : (s.setReg x b).keys = s.keys := rfl
@[simp] theorem State.setReg_rnd (s : State) (x : Nibble) (b : Byte) : (s.setReg x b).rnd = s.rnd := rfl
@[simp] theorem State.setReg_pending (s : State) (x : Nibble) (b : Byte) : (s.setReg x b).pending = s.pending := rfl
@[simp] theorem State.setReg_inputCount (s : State) (x : Nibble) (b : Byte) : (s.setReg x b).inputCount = s.inputCount := rfl

@[simp] theorem State.setI_mem (s : State) (w : Word) : (s.setI w).mem = s.mem := rfl
@[simp] theorem State.setI_v (s : State) (w : Word) : (s.setI w).v = s.v := rfl
@[simp] theorem State.setI_iReg (s : State) (w : Word) : (s.setI w).iReg = w := rfl
@[simp] theorem State.setI_pc (s : State) (w : Word) : (s.setI w).pc = s.pc := rfl
@[simp] theorem State.setI_sp (s : State) (w : Word) : (s.setI w).sp = s.sp := rfl
@[simp] theorem State.setI_stack (s : State) (w : Word) : (s.setI w).stack = s.stack := rfl
@[simp] theorem State.setI_dt (s : State) (w : Word) : (s.setI w).dt = s.dt := rfl
@[simp] theorem State.setI_st (s : State) (w : Word) : (s.setI w).st = s.st := rfl
@[simp] theorem State.setI_disp (s : State) (w : Word) : (s.setI w).disp = s.disp := rfl
@[simp] theorem State.setI_redraw (s : State) (w : Word) : (s.setI w).redraw = s.redraw := rfl
@[simp] theorem State.setI_status (s : State) (w : Word) : (s.setI w).status = s.status := rfl
@[simp] theorem State.setI_keys (s : State) (w : Word) : (s.setI w).keys = s.keys := rfl
@[simp] theorem State.setI_rnd (s : State) (w : Word) : (s.setI w).rnd = s.rnd := rfl
@[simp] theorem State.setI_pending (s : State) (w : Word) : (s.setI w).pending = s.pending := rfl
@[simp] theorem State.setI_inputCount (s : State) (w : Word) : (s.setI w).inputCount = s.inputCount := rfl

@[simp] theorem State.setPc_mem (s : State) (w : Word) : (s.setPc w).mem = s.mem := rfl
@[simp] theorem State.setPc_v (s : State) (w : Word) : (s.setPc w).v = s.v := rfl
@[simp] theorem State.setPc_iReg (s : State) (w : Word) : (s.setPc w).iReg = s.iReg := rfl
@[simp] theorem State.setPc_pc (s : State) (w : Word) : (s.setPc w).pc = w := rfl
@[simp] theorem State.setPc_sp (s : State) (w : Word) : (s.setPc w).sp = s.sp := rfl
@[simp] theorem State.setPc_stack (s : State) (w : Word) : (s.setPc w).stack = s.stack := rfl
@[simp] theorem State.setPc_dt (s : State) (w : Word) : (s.setPc w).dt = s.dt := rfl
@[simp] theorem State.setPc_st (s : State) (w : Word) : (s.setPc w).st = s.st := rfl
@[simp] theorem State.setPc_disp (s : State) (w : Word) : (s.setPc w).disp = s.disp := rfl
@[simp] theorem State.setPc_redraw (s : State) (w : Word) : (s.setPc w).redraw = s.redraw := rfl
@[simp] theorem State.setPc_status (s : State) (w : Word) : (s.setPc w).status = s.status := rfl
@[simp] theorem State.setPc_keys (s : State) (w : Word) : (s.setPc w).keys = s.keys := rfl
@[simp] theorem State.setPc_rnd (s : State) (w : Word) : (s.setPc w).rnd = s.rnd := rfl
@[simp] theorem State.setPc_pending (s : State) (w : Word) : (s.setPc w).pending = s.pending := rfl
@[simp] theorem State.setPc_inputCount (s : State) (w : Word) : (s.setPc w).inputCount = s.inputCount := rfl

@[simp] theorem State.setMem_mem (s : State) (m : Memory) : (s.setMem m).mem = m := rfl
@[simp] theorem State.setMem_v (s : State) (m : Memory) : (s.setMem m).v = s.v := rfl
@[simp] theorem State.setMem_iReg (s : State) (m : Memory) : (s.setMem m).iReg = s.iReg := rfl
@[simp] theorem State.setMem_pc (s : State) (m : Memory) : (s.setMem m).pc = s.pc := rfl
@[simp] theorem State.setMem_sp (s : State) (m : Memory) : (s.setMem m).sp = s.sp := rfl
@[simp] theorem State.setMem_stack (s : State) (m : Memory) : (s.setMem m).stack = s.stack := rfl
@[simp] theorem State.setMem_dt (s : State) (m : Memory) : (s.setMem m).dt = s.dt := rfl
@[simp] theorem State.setMem_st (s : State) (m : Memory) : (s.setMem m).st = s.st := rfl
@[simp] theorem State.setMem_disp (s : State) (m : Memory) : (s.setMem m).disp = s.disp := rfl
@[simp] theorem State.setMem_redraw (s : State) (m : Memory) : (s.setMem m).redraw = s.redraw := rfl
@[simp] theorem State.setMem_status (s : State) (m : Memory) : (s.setMem m).status = s.status := rfl
@[simp] theorem State.setMem_keys (s : State) (m : Memory) : (s.setMem m).keys = s.keys := rfl
@[simp] theorem State.setMem_rnd (s : State) (m : Memory) : (s.setMem m).rnd = s.rnd := rfl
@[simp] theorem State.setMem_pending (s : State) (m : Memory) : (s.setMem m).pending = s.pending := rfl
@[simp] theorem State.setMem_inputCount (s : State) (m : Memory) : (s.setMem m).inputCount = s.inputCount := rfl

@[simp] theorem State.advance_mem (s : State) : (s.advance).mem = s.mem := rfl
@[simp] theorem State.advance_v (s : State) : (s.advance).v = s.v := rfl
@[simp] theorem State.advance_iReg (s : State) : (s.advance).iReg = s.iReg := rfl
@[simp] theorem State.advance_pc (s : State) : (s.advance).pc = s.pc + 2 := rfl
@[simp] theorem State.advance_sp (s : State) : (s.advance).sp = s.sp := rfl
@[simp] theorem State.advance_stack (s : State) : (s.advance).stack = s.stack := rfl
@[simp] theorem State.advance_dt (s : State) : (s.advance).dt = s.dt := rfl
@[simp] theorem State.advance_st (s : State) : (s.advance).st = s.st := rfl
@[simp] theorem State.advance_disp (s : State) : (s.advance).disp = s.disp := rfl
@[simp] theorem State.advance_redraw (s : State) : (s.advance).redraw = s.redraw := rfl
@[simp] theorem State.advance_status (s : State) : (s.advance).status = s.status := rfl
@[simp] theorem State.advance_keys (s : State) : (s.advance).keys = s.keys := rfl
@[simp] theorem State.advance_rnd (s : State) : (s.advance).rnd = s.rnd := rfl
@[simp] theorem State.advance_pending (s : State) : (s.advance).pending = s.pending := rfl
@[simp] theorem State.advance_inputCount (s : State) : (s.advance).inputCount = s.inputCount := rfl

@[simp] theorem State.skipIf_mem (s : State) (c : Bool) : (s.skipIf c).mem = s.mem := rfl
@[simp] theorem State.skipIf_v (s : State) (c : Bool) : (s.skipIf c).v = s.v := rfl
@[simp] theorem State.skipIf_iReg (s : State) (c : Bool) : (s.skipIf c).iReg = s.iReg := rfl
@[simp] theorem State.skipIf_pc (s : State) (c : Bool) : (s.skipIf c).pc = if c then s.pc + 4 else s.pc + 2 := rfl
@[simp] theorem State.skipIf_sp (s : State) (c : Bool) : (s.skipIf c).sp = s.sp := rfl
@[simp] theorem State.skipIf_stack (s : State) (c : Bool) : (s.skipIf c).stack = s.stack := rfl
@[simp] theorem State.skipIf_dt (s : State) (c : Bool) : (s.skipIf c).dt = s.dt := rfl
@[simp] theorem State.skipIf_st (s : State) (c : Bool) : (s.skipIf c).st = s.st := rfl
@[simp] theorem State.skipIf_disp (s : State) (c : Bool) : (s.skipIf c).disp = s.disp := rfl
@[simp] theorem State.skipIf_redraw (s : State) (c : Bool) : (s.skipIf c).redraw = s.redraw := rfl
@[simp] theorem State.skipIf_status (s : State) (c : Bool) : (s.skipIf c).status = s.status := rfl
@[simp] theorem State.skipIf_keys (s : State) (c : Bool) : (s.skipIf c).keys = s.keys := rfl
@[simp] theorem State.skipIf_rnd (s : State) (c : Bool) : (s.skipIf c).rnd = s.rnd := rfl
@[simp] theorem State.skipIf_pending (s : State) (c : Bool) : (s.skipIf c).pending = s.pending := rfl
@[simp] theorem State.skipIf_inputCount (s : State) (c : Bool) : (s.skipIf c).inputCount = s.inputCount := rfl

@[simp] theorem State.setFlag_mem (s : State) (b : Byte) : (s.setFlag b).mem = s.mem := rfl
@[simp] theorem State.setFlag_iReg (s : State) (b : Byte) : (s.setFlag b).iReg = s.iReg := rfl
@[simp] theorem State.setFlag_pc (s : State) (b : Byte) : (s.setFlag b).pc = s.pc := rfl
@[simp] theorem State.setFlag_sp (s : State) (b : Byte) : (s.setFlag b).sp = s.sp := rfl
@[simp] theorem State.setFlag_stack (s : State) (b : Byte) : (s.setFlag b).stack = s.stack := rfl
@[simp] theorem State.setFlag_dt (s : State) (b : Byte) : (s.setFlag b).dt = s.dt := rfl
@[simp] theorem State.setFlag_st (s : State) (b : Byte) : (s.setFlag b).st = s.st := rfl
@[simp] theorem State.setFlag_disp (s : State) (b : Byte) : (s.setFlag b).disp = s.disp := rfl
@[simp] theorem State.setFlag_redraw (s : State) (b : Byte) : (s.setFlag b).redraw = s.redraw := rfl
@[simp] theorem State.setFlag_status (s : State) (b : Byte) : (s.setFlag b).status = s.status := rfl
@[simp] theorem State.setFlag_keys (s : State) (b : Byte) : (s.setFlag b).keys = s.keys := rfl
@[simp] theorem State.setFlag_rnd (s : State) (b : Byte) : (s.setFlag b).rnd = s.rnd := rfl
@[simp] theorem State.setFlag_pending (s : State) (b : Byte) : (s.setFlag b).pending = s.pending := rfl
@[simp] theorem State.setFlag_inputCount (s : State) (b : Byte) : (s.setFlag b).inputCount = s.inputCount := rfl

@[simp] theorem State.tick_mem (s : State) : (s.tick).mem = s.mem := rfl
@[simp] theorem State.tick_v (s : State) : (s.tick).v = s.v := rfl
@[simp] theorem State.tick_iReg (s : State) : (s.tick).iReg = s.iReg := rfl
@[simp] theorem State.tick_pc (s : State) : (s.tick).pc = s.pc := rfl
@[simp] theorem State.tick_sp (s : State) : (s.tick).sp = s.sp := rfl
@[simp] theorem State.tick_stack (s : State) : (s.tick).stack = s.stack := rfl
@[simp] theorem State.tick_dt (s : State) : (s.tick).dt = countDown s.dt := rfl
@[simp] theorem State.tick_st (s : State) : (s.tick).st = countDown s.st := rfl
@[simp] theorem State.tick_disp (s : State) : (s.tick).disp = s.disp := rfl
@[simp] theorem State.tick_redraw (s : State) : (s.tick).redraw = s.redraw := rfl
@[simp] theorem State.tick_status (s : State) : (s.tick).status = s.status := rfl
@[simp] theorem State.tick_keys (s : State) : (s.tick).keys = s.keys := rfl
@[simp] theorem State.tick_rnd (s : State) : (s.tick).rnd = s.rnd := rfl
@[simp] theorem State.tick_pending (s : State) : (s.tick).pending = s.pending := rfl
@[simp] theorem State.tick_inputCount (s : State) : (s.tick).inputCount = s.inputCount := rfl

@[simp] theorem State.reg_setI (s : State) (w : Word) (r : Nibble) : (s.setI w).reg r = s.reg r := rfl
@[simp] theorem State.reg_setPc (s : State) (w : Word) (r : Nibble) : (s.setPc w).reg r = s.reg r := rfl
@[simp] theorem State.reg_setMem (s : State) (m : Memory) (r : Nibble) : (s.setMem m).reg r = s.reg r := rfl
@[simp] theorem State.reg_advance (s : State) (r : Nibble) : (s.advance).reg r = s.reg r := rfl
@[simp] theorem State.reg_skipIf (s : State) (c : Bool) (r : Nibble) : (s.skipIf c).reg r = s.reg r := rfl
@[simp] theorem State.reg_tick (s : State) (r : Nibble) : (s.tick).reg r = s.reg r := rfl

/-- Reading a register after writing one. -/
theorem State.reg_setReg (s : State) (x r : Nibble) (b : Byte) :
    (s.setReg x b).reg r = if r = x then b else s.reg r := by
  simp [State.reg, State.setReg, Vector.getElem_set, BitVec.toNat_inj, eq_comm]

@[simp] theorem State.reg_setReg_self (s : State) (x : Nibble) (b : Byte) : (s.setReg x b).reg x = b := by
  simp [State.reg_setReg]

theorem State.reg_setReg_of_ne (s : State) {x r : Nibble} (b : Byte) (h : r ≠ x) :
    (s.setReg x b).reg r = s.reg r := by simp [State.reg_setReg, h]

/-- Reading a register after writing the flag. -/
theorem State.reg_setFlag (s : State) (r : Nibble) (b : Byte) :
    (s.setFlag b).reg r = if r = vF then b else s.reg r := State.reg_setReg s vF r b

/-- Two states with the same registers hold the same register file. -/
theorem State.v_eq_of_reg {s t : State} (h : ∀ r, t.reg r = s.reg r) : t.v = s.v := by
  apply Vector.ext
  intro k hk
  have := h (BitVec.ofNat 4 k)
  simpa [State.reg, BitVec.toNat_ofNat, Nat.mod_eq_of_lt hk] using this

/-- The next input changes the inputs only. -/
theorem State.nextInput_eq (s : State) :
    s.nextInput = { s with keys := s.nextInput.keys, rnd := s.nextInput.rnd,
                           pending := s.nextInput.pending, inputCount := s.nextInput.inputCount } := by
  unfold State.nextInput; split <;> rfl

@[simp] theorem State.nextInput_mem (s : State) : s.nextInput.mem = s.mem := by rw [State.nextInput_eq]
@[simp] theorem State.nextInput_v (s : State) : s.nextInput.v = s.v := by rw [State.nextInput_eq]
@[simp] theorem State.nextInput_iReg (s : State) : s.nextInput.iReg = s.iReg := by rw [State.nextInput_eq]
@[simp] theorem State.nextInput_pc (s : State) : s.nextInput.pc = s.pc := by rw [State.nextInput_eq]
@[simp] theorem State.nextInput_sp (s : State) : s.nextInput.sp = s.sp := by rw [State.nextInput_eq]
@[simp] theorem State.nextInput_stack (s : State) : s.nextInput.stack = s.stack := by rw [State.nextInput_eq]
@[simp] theorem State.nextInput_dt (s : State) : s.nextInput.dt = s.dt := by rw [State.nextInput_eq]
@[simp] theorem State.nextInput_st (s : State) : s.nextInput.st = s.st := by rw [State.nextInput_eq]
@[simp] theorem State.nextInput_disp (s : State) : s.nextInput.disp = s.disp := by rw [State.nextInput_eq]
@[simp] theorem State.nextInput_redraw (s : State) : s.nextInput.redraw = s.redraw := by rw [State.nextInput_eq]
@[simp] theorem State.nextInput_status (s : State) : s.nextInput.status = s.status := by rw [State.nextInput_eq]

@[simp] theorem State.reg_nextInput (s : State) (r : Nibble) : s.nextInput.reg r = s.reg r := by simp [State.reg]

@[simp] theorem State.retire_mem (s : State) : s.retire.mem = s.mem := by simp [State.retire]
@[simp] theorem State.retire_v (s : State) : s.retire.v = s.v := by simp [State.retire]
@[simp] theorem State.retire_iReg (s : State) : s.retire.iReg = s.iReg := by simp [State.retire]
@[simp] theorem State.retire_pc (s : State) : s.retire.pc = s.pc := by simp [State.retire]
@[simp] theorem State.retire_sp (s : State) : s.retire.sp = s.sp := by simp [State.retire]
@[simp] theorem State.retire_stack (s : State) : s.retire.stack = s.stack := by simp [State.retire]
@[simp] theorem State.retire_disp (s : State) : s.retire.disp = s.disp := by simp [State.retire]
@[simp] theorem State.retire_redraw (s : State) : s.retire.redraw = s.redraw := by simp [State.retire]
@[simp] theorem State.retire_status (s : State) : s.retire.status = s.status := by simp [State.retire]
@[simp] theorem State.retire_dt (s : State) : s.retire.dt = countDown s.dt := by simp [State.retire]
@[simp] theorem State.retire_st (s : State) : s.retire.st = countDown s.st := by simp [State.retire]
@[simp] theorem State.reg_retire (s : State) (r : Nibble) : s.retire.reg r = s.reg r := by simp [State.retire]

end Sys2Proof.Machine
end

