-- ==== Sys2Proof/Laws/Ops.lean ====
section
/-! SUPPORT. One lemma per shared operation that says once what it can do: the stack, the bounds check, the key operand, fetch, the end of a step, and the inversion of a whole step. -/

namespace Sys2Proof.Machine

/-- Raising a fatal error answers a next state in which only the status changed. -/
theorem State.raise_eq (s : State) (e : Fault) : s.raise e = .next { s with status := .halted e } := rfl

theorem State.push_of_lt {s : State} (ret : Addr) (h : s.sp.val < 16) :
    s.push ret = some { s with stack := s.stack.set s.sp.val ret h, sp := ⟨s.sp.val + 1, Nat.succ_lt_succ h⟩ } := by
  simp [State.push, h]

theorem State.push_full {s : State} (ret : Addr) (h : ¬ s.sp.val < 16) : s.push ret = none := by
  simp [State.push, h]

/-- What a push can do: the stack has room, and only the stack and SP change. -/
theorem State.push_some {s t : State} {ret : Addr} (h : s.push ret = some t) :
    s.sp.val < 16 ∧ t.sp.val = s.sp.val + 1 ∧ t = { s with sp := t.sp, stack := t.stack } ∧
      (∀ k, t.stack[k]? = if k = s.sp.val then some ret else s.stack[k]?) := by
  by_cases hs : s.sp.val < 16
  · rw [State.push_of_lt ret hs, Option.some.injEq] at h
    subst h
    refine ⟨hs, rfl, rfl, fun k => ?_⟩
    simp only [Vector.getElem?_set]
    by_cases hk : k = s.sp.val
    · subst hk; simp
    · simp [hk, show ¬ s.sp.val = k from fun h => hk h.symm]
  · simp [State.push_full ret hs] at h

/-- What a pop can do: the stack is not empty, SP falls by one, and nothing else changes. -/
theorem State.pop_some {s t : State} {ret : Addr} (h : s.pop = some (ret, t)) :
    0 < s.sp.val ∧ s.stack[s.sp.val - 1]? = some ret ∧ t.sp.val = s.sp.val - 1 ∧ t = { s with sp := t.sp } := by
  unfold State.pop at h
  split at h
  · next hs =>
    simp only [Option.some.injEq, Prod.mk.injEq] at h
    obtain ⟨rfl, rfl⟩ := h
    refine ⟨hs, ?_, rfl, rfl⟩
    have := s.sp.isLt
    simp [show s.sp.val - 1 < 16 by omega]
  · cases h

theorem State.pop_none {s : State} : s.pop = none ↔ s.sp.val = 0 := by
  unfold State.pop
  split
  · next h => simp; omega
  · next h => simp; omega

theorem State.push_none {s : State} {ret : Addr} : s.push ret = none ↔ s.sp.val = 16 := by
  unfold State.push
  have := s.sp.isLt
  split
  · next h => simp; omega
  · next h => simp; omega

/-- The bounds check of R97: the access runs, or the machine halts with the first address out of range. -/
theorem State.withRange_eq (s : State) (count : Nat) (access : Access) (k : Result) :
    s.withRange count access k =
      if count = 0 ∨ s.iReg.toNat + count ≤ 0x1000 then k
      else .next { s with status := .halted (.addressOutOfBounds (max s.iReg.toNat 0x1000) access s.pc) } := by
  by_cases h : count = 0 ∨ s.iReg.toNat + count ≤ 0x1000 <;>
    simp [State.withRange, State.rangeOk, State.firstBadAddr, Config.memTop, State.raise, h]

/-- The key operand of R111: the key's bit, or the machine halts. -/
theorem State.withKey_eq (s : State) (b : Byte) (k : Bool → Result) :
    s.withKey b k = if b.toNat ≤ 0xF then k (s.keys.getLsbD b.toNat)
      else .next { s with status := .halted (.keyIndexOutOfRange b s.pc) } := rfl

/-- Fetch (R62): the word at pc, or AddressOutOfBounds. -/
theorem State.fetch_eq (s : State) :
    s.fetch = if s.pc.toNat ≤ 0xFFE then .ok s.fetchWord else .error (.addressOutOfBounds s.pc.toNat .fetch s.pc) := by
  have : s.pc.toNat + 1 ≤ Config.memTop ↔ s.pc.toNat ≤ 0xFFE := by simp only [Config.memTop]; omega
  simp only [State.fetch, this]

theorem wordOfBytes_toNat (a b : Byte) : (wordOfBytes a b).toNat = a.toNat * 256 + b.toNat := by
  have ha := a.isLt
  have hb := b.isLt
  have h : a.toNat <<< 8 ||| b.toNat = a.toNat <<< 8 + b.toNat := by
    rw [Nat.shiftLeft_add_eq_or_of_lt (by simpa using hb)]
  simp only [wordOfBytes, BitVec.toNat_or, BitVec.toNat_shiftLeft, BitVec.toNat_setWidth]
  rw [Nat.mod_eq_of_lt (show a.toNat < 2 ^ 16 by omega), Nat.mod_eq_of_lt (show b.toNat < 2 ^ 16 by omega),
    Nat.mod_eq_of_lt (by rw [Nat.shiftLeft_eq]; omega), h, Nat.shiftLeft_eq]

@[simp] theorem countDown_toNat (t : Byte) : (countDown t).toNat = t.toNat - 1 := by
  unfold countDown
  split
  · next h => simp [h]
  · next h =>
    have : t.toNat ≠ 0 := fun h0 => h (BitVec.eq_of_toNat_eq (by simpa using h0))
    have := t.isLt
    simp [BitVec.toNat_sub]
    omega

/-- What the end of a step does to a state that runs. -/
theorem endStep_of_run {s : State} (h : s.status = .run) : endStep (.next s) = .next s.retire := by
  simp [endStep, h]

/-- What the end of a step does to a state that was halted. -/
theorem endStep_of_halted {s : State} {e : Fault} (h : s.status = .halted e) : endStep (.next s) = .next s := by
  simp [endStep, h]

/-- FX65's block load into the registers changes the registers only. -/
theorem State.setRegsFrom_eq (s : State) (k : Nat) (bs : List Byte) :
    s.setRegsFrom k bs = { s with v := (s.setRegsFrom k bs).v } := by
  induction bs generalizing s k with
  | nil => rfl
  | cons b bs ih => rw [State.setRegsFrom, ih]; rfl

/-- FX65's block load reads no part of the state but the registers. -/
theorem State.setRegsFrom_v_congr {s t : State} (h : s.v = t.v) (k : Nat) (bs : List Byte) :
    (s.setRegsFrom k bs).v = (t.setRegsFrom k bs).v := by
  induction bs generalizing s t k with
  | nil => exact h
  | cons b bs ih => exact ih (by simp [State.setReg, h]) (k + 1)

/-- Which byte FX65's block load leaves in a register. -/
theorem State.reg_setRegsFrom (s : State) (k : Nat) (bs : List Byte) (r : Nibble) (h : k + bs.length ≤ 16) :
    (s.setRegsFrom k bs).reg r = if k ≤ r.toNat then (bs[r.toNat - k]?).getD (s.reg r) else s.reg r := by
  induction bs generalizing s k with
  | nil => simp [State.setRegsFrom]
  | cons b bs ih =>
    have hr : r = BitVec.ofNat 4 k ↔ r.toNat = k := by
      have := r.isLt
      simp only [List.length_cons] at h
      rw [← BitVec.toNat_inj, BitVec.toNat_ofNat, Nat.mod_eq_of_lt (by omega)]
    simp only [List.length_cons] at h
    rw [State.setRegsFrom, ih _ _ (by omega), State.reg_setReg]
    rcases Nat.lt_trichotomy r.toNat k with hk | hk | hk
    · simp [hr, show ¬ k ≤ r.toNat by omega, show ¬ k + 1 ≤ r.toNat by omega, show r.toNat ≠ k by omega]
    · simp [hr, hk]
    · obtain ⟨j, hj⟩ : ∃ j, r.toNat = k + 1 + j := ⟨r.toNat - (k + 1), by omega⟩
      simp [hr, hj, show k + 1 + j ≠ k by omega, show k ≤ k + 1 + j by omega, show k + 1 + j - k = j + 1 by omega]

/-- The registers FX55 stores: the k-th is V[k]. -/
theorem State.getElem_firstRegs (s : State) (n k : Nat) (h : k < (s.firstRegs n).length) :
    (s.firstRegs n)[k] = s.reg (BitVec.ofNat 4 k) := by simp [State.firstRegs]

@[simp] theorem State.length_firstRegs (s : State) (n : Nat) : (s.firstRegs n).length = n := by
  simp [State.firstRegs]

/-- Execute always answers a next state: one that raised a fatal error (never MalformedRom) and
changed nothing else, or one in the same status. -/
theorem exec_next (i : Instr) (s : State) :
    ∃ t, exec i s = .next t ∧ ((∃ e, (∀ n, e ≠ .malformedRom n) ∧ t = { s with status := .halted e }) ∨ t.status = s.status) := by
  cases i
  case ret =>
    rcases h : s.pop with _ | ⟨ret, t⟩
    · exact ⟨_, by simp [exec, execRet, h, State.raise]; rfl, .inl ⟨_, by simp, rfl⟩⟩
    · obtain ⟨-, -, -, ht⟩ := State.pop_some h
      exact ⟨_, by simp [exec, execRet, h]; rfl, .inr (by rw [ht]; rfl)⟩
  case call nnn =>
    rcases h : s.push (s.pc.setWidth 12) with _ | t
    · exact ⟨_, by simp [exec, execCall, h, State.raise]; rfl, .inl ⟨_, by simp, rfl⟩⟩
    · obtain ⟨-, -, ht, -⟩ := State.push_some h
      exact ⟨_, by simp [exec, execCall, h]; rfl, .inr (by rw [ht]; rfl)⟩
  case drw x y n =>
    simp only [exec, execDrw, State.withRange_eq]
    split
    · exact ⟨_, rfl, .inr rfl⟩
    · exact ⟨_, rfl, .inl ⟨_, by simp, rfl⟩⟩
  case skp x =>
    simp only [exec, execSkp, State.withKey_eq]
    split
    · exact ⟨_, rfl, .inr rfl⟩
    · exact ⟨_, rfl, .inl ⟨_, by simp, rfl⟩⟩
  case sknp x =>
    simp only [exec, execSknp, State.withKey_eq]
    split
    · exact ⟨_, rfl, .inr rfl⟩
    · exact ⟨_, rfl, .inl ⟨_, by simp, rfl⟩⟩
  case ldVxK x =>
    simp only [exec, execLdVxK]
    split
    · exact ⟨_, rfl, .inr rfl⟩
    · exact ⟨_, rfl, .inr rfl⟩
  case ldB x =>
    simp only [exec, execLdB, State.withRange_eq]
    split
    · exact ⟨_, rfl, .inr rfl⟩
    · exact ⟨_, rfl, .inl ⟨_, by simp, rfl⟩⟩
  case storeRegs x =>
    simp only [exec, execStoreRegs, State.withRange_eq]
    split
    · exact ⟨_, rfl, .inr rfl⟩
    · exact ⟨_, rfl, .inl ⟨_, by simp, rfl⟩⟩
  case loadRegs x =>
    simp only [exec, execLoadRegs, State.withRange_eq]
    split
    · exact ⟨_, rfl, .inr (by rw [State.setRegsFrom_eq]; rfl)⟩
    · exact ⟨_, rfl, .inl ⟨_, by simp, rfl⟩⟩
  all_goals exact ⟨_, rfl, .inr rfl⟩

/-- What a step that answers a next state did: it ran from Run and either raised a fatal error, which changed the status
only, or executed the decoded instruction and retired. -/
theorem step_cases {s t : State} (h : step s = .next t) :
    s.status = .run ∧
      ((∃ e, (∀ n, e ≠ .malformedRom n) ∧ t = { s with status := .halted e }) ∨
        ∃ i u, s.nextInstr = some i ∧ exec i s = .next u ∧ u.status = .run ∧ t = u.retire) := by
  unfold step at h
  cases hs : s.status with
  | uninit => simp [hs] at h
  | init => simp [hs] at h
  | halted e => simp [hs] at h
  | run =>
    refine ⟨rfl, ?_⟩
    simp only [hs, cycle, decodeBytes_bytes] at h
    cases hf : s.fetch with
    | error e =>
      rw [hf] at h
      rw [State.fetch_eq] at hf
      split at hf
      · cases hf
      · cases hf
        simp only [State.raise, Host.Outcome.next.injEq] at h
        exact .inl ⟨_, by simp, h.symm⟩
    | ok op =>
      rw [hf] at h
      cases hd : decode op with
      | error r =>
        cases r
        simp only [hd, State.raise, Host.Outcome.next.injEq] at h
        exact .inl ⟨_, by simp, h.symm⟩
      | ok i =>
        obtain ⟨u, hu, hc⟩ := exec_next i s
        simp only [hd, hu] at h
        rcases hc with ⟨e, he, rfl⟩ | hc
        · rw [endStep_of_halted rfl, Host.Outcome.next.injEq] at h
          exact .inl ⟨e, he, h.symm⟩
        · rw [hs] at hc
          rw [endStep_of_run hc, Host.Outcome.next.injEq] at h
          exact .inr ⟨i, u, by simp [State.nextInstr, hf, hd, Except.toOption], hu, hc, h.symm⟩

end Sys2Proof.Machine
end

