-- ==== Sys2Proof/Laws/Exec.lean ====
section
/-! SUPPORT. What the instructions that may raise a fatal error answer when they do not: one equation per instruction. -/

namespace Sys2Proof.Machine

theorem wordOfAddr_toNat (a : Addr) : (wordOfAddr a).toNat = a.toNat := by
  have := a.isLt
  simp only [wordOfAddr, BitVec.toNat_setWidth]
  omega

theorem exec_call_ok {s : State} (nnn : Addr) (h : s.sp.val < 16) :
    exec (.call nnn) s = .next { s with
      stack := s.stack.set s.sp.val (s.pc.setWidth 12) h, sp := ⟨s.sp.val + 1, Nat.succ_lt_succ h⟩,
      pc := wordOfAddr nnn } := by
  simp only [exec, execCall, State.push_of_lt _ h, State.setPc]

theorem exec_ret_ok {s : State} {ret : Addr} (h : 0 < s.sp.val) (hr : s.stack[s.sp.val - 1]? = some ret) :
    ∃ p : Fin 17, p.val = s.sp.val - 1 ∧ exec .ret s = .next { s with sp := p, pc := wordOfAddr ret + 2 } := by
  rcases hp : s.pop with _ | ⟨r, t⟩
  · have := State.pop_none.1 hp; omega
  · obtain ⟨-, h2, h3, ht⟩ := State.pop_some hp
    rw [hr] at h2
    cases h2
    refine ⟨t.sp, h3, ?_⟩
    simp only [exec, execRet, hp, State.setPc]
    rw [ht]

theorem exec_skp_ok {s : State} {x : Nibble} (h : (s.reg x).toNat ≤ 0xF) :
    exec (.skp x) s = .next (s.skipIf (s.keys.getLsbD (s.reg x).toNat)) := by
  simp only [exec, execSkp, State.withKey_eq, if_pos h]

theorem exec_sknp_ok {s : State} {x : Nibble} (h : (s.reg x).toNat ≤ 0xF) :
    exec (.sknp x) s = .next (s.skipIf !(s.keys.getLsbD (s.reg x).toNat)) := by
  simp only [exec, execSknp, State.withKey_eq, if_pos h]

theorem exec_ldB_ok {s : State} {x : Nibble} (h : s.iReg.toNat + 2 ≤ 0xFFF) :
    exec (.ldB x) s = .next (s.setMem (s.mem.writeBytes s.iReg.toNat (bcdDigits (s.reg x)))).advance := by
  simp only [exec, execLdB, State.withRange_eq]
  rw [if_pos (by omega)]

theorem exec_storeRegs_ok {s : State} {x : Nibble} (h : s.iReg.toNat + x.toNat ≤ 0xFFF) :
    exec (.storeRegs x) s =
      .next (s.setMem (s.mem.writeBytes s.iReg.toNat (s.firstRegs (x.toNat + 1)))).advance := by
  simp only [exec, execStoreRegs, State.withRange_eq]
  rw [if_pos (by omega)]

theorem exec_loadRegs_ok {s : State} {x : Nibble} (h : s.iReg.toNat + x.toNat ≤ 0xFFF) :
    exec (.loadRegs x) s = .next { s with
      v := (s.setRegsFrom 0 (s.mem.readBytes s.iReg.toNat (x.toNat + 1))).v,
      iReg := s.iReg + x.setWidth 16 + 1, pc := s.pc + 2 } := by
  simp only [exec, execLoadRegs, State.withRange_eq]
  rw [if_pos (by omega), State.setRegsFrom_eq]
  rfl

theorem exec_drw_ok {s : State} {x y : Nibble} {n : Nat} (h : n = 0 ∨ s.iReg.toNat + n - 1 ≤ 0xFFF) :
    exec (.drw x y n) s = .next { s.setFlag (flagByte (drawHits (spriteHits (s.reg x).toNat (s.reg y).toNat
        (s.mem.readBytes s.iReg.toNat n)) (s.disp, false)).2) with
      disp := (drawHits (spriteHits (s.reg x).toNat (s.reg y).toNat
        (s.mem.readBytes s.iReg.toNat n)) (s.disp, false)).1,
      redraw := true, pc := s.pc + 2 } := by
  simp only [exec, execDrw, State.withRange_eq]
  rw [if_pos (by omega), drawRows_eq]
  rfl

/-- The sprite DXYN reads is the sprite of the statements. -/
theorem mem_spriteHits_iff_spriteAt (s : State) (x y : Nibble) (n : Nat) (px : Fin 64) (py : Fin 32) :
    (px, py) ∈ spriteHits (s.reg x).toNat (s.reg y).toNat (s.mem.readBytes s.iReg.toNat n) ↔
      s.spriteAt x y n px py := by
  simp only [mem_spriteHits, State.spriteAt, SpriteCovers, Memory.length_readBytes]
  refine exists_congr fun r => exists_congr fun b => and_congr_right fun hr => ?_
  rw [List.getD_eq_getElem _ _ (by simpa using hr), Memory.getElem_readBytes]

theorem lowestKey_eq_none {keys : BitVec 16} : lowestKey keys = none ↔ keys = 0 := by
  simp only [lowestKey, List.find?_eq_none, List.mem_range]
  constructor
  · intro h
    apply BitVec.eq_of_getLsbD_eq
    intro i hi
    simpa using h i hi
  · rintro h
    simp [h]

/-- The lowest pressed key is pressed, and no lower key is. -/
theorem lowestKey_eq_some {keys : BitVec 16} {k : Nat} :
    lowestKey keys = some k ↔ k < 16 ∧ keys.getLsbD k = true ∧ ∀ j, j < k → keys.getLsbD j = false := by
  simp only [lowestKey, List.find?_range_eq_some, List.mem_range]
  constructor
  · rintro ⟨h1, h2, h3⟩
    exact ⟨h2, h1, fun j hj => by simpa using h3 j hj⟩
  · rintro ⟨h1, h2, h3⟩
    exact ⟨h2, h1, fun j hj => by simpa using h3 j hj⟩

/-- What it means that the next step decodes `i`: pc is in range, and the word at pc decodes to `i`. -/
theorem State.nextInstr_some {s : State} {i : Instr} (h : s.nextInstr = some i) :
    s.pc.toNat ≤ 0xFFE ∧ s.fetch = .ok s.fetchWord ∧ decode s.fetchWord = .ok i := by
  simp only [State.nextInstr, State.fetch_eq] at h ⊢
  by_cases hp : s.pc.toNat ≤ 0xFFE
  · simp only [hp, if_true] at h ⊢
    cases hd : decode s.fetchWord with
    | error r => simp [hd, Except.toOption] at h
    | ok j =>
      simp [hd, Except.toOption] at h
      simp [h]
  · simp [hp] at h

/-- A halted copy of a state that has the state's status is the state. -/
theorem State.eq_of_halted {s t : State} {e : Fault} (h : { s with status := .halted e } = t) (ht : t.status = s.status) :
    t = s := by
  subst h
  cases s
  simp_all

/-- Every part agrees with itself. -/
theorem KeepsBut.refl (parts : List Part) (s : State) : KeepsBut parts s s :=
  ⟨fun _ _ => rfl, fun _ => rfl, fun _ => rfl, fun _ _ => rfl, fun _ => ⟨rfl, rfl⟩, fun _ => rfl, fun _ => rfl,
    fun _ _ _ => rfl, fun _ => rfl, fun _ => rfl, ⟨rfl, rfl, rfl, rfl⟩⟩

/-- Setting pc changes pc only. -/
theorem KeepsBut.setPc (s : State) (w : Word) : KeepsBut [.pc] s (s.setPc w) :=
  ⟨fun _ _ => rfl, fun _ => rfl, fun h => absurd (by simp) h, fun _ _ => rfl, fun _ => ⟨rfl, rfl⟩, fun _ => rfl,
    fun _ => rfl, fun _ _ _ => rfl, fun _ => rfl, fun _ => rfl, ⟨rfl, rfl, rfl, rfl⟩⟩

/-- Setting a register and advancing change the registers and pc only. -/
theorem KeepsBut.setReg_advance (s : State) (x : Nibble) (b : Byte) : KeepsBut [.regs, .pc] s (s.setReg x b).advance :=
  ⟨fun h => absurd (by simp) h, fun _ => rfl, fun h => absurd (by simp) h, fun _ _ => rfl, fun _ => ⟨rfl, rfl⟩,
    fun _ => rfl, fun _ => rfl, fun _ _ _ => rfl, fun _ => rfl, fun _ => rfl, ⟨rfl, rfl, rfl, rfl⟩⟩

end Sys2Proof.Machine
end

