-- ==== Sys2Proof/Laws/PerInstr.lean ====
section
/-! SUPPORT. The statements made for every instruction, one lemma per constructor: its encoding has the fixed bits of its row of R67. -/

/-- The encoding of `i` agrees with `i`'s row of R67 in every fixed bit: the row, found by its mnemonic, gives `match` under
`mask`. -/
def Sys2Proof.Laws.FixedBits.Statement (i : Sys2Proof.Instr) : Prop :=
  ∃ r ∈ Sys2Proof.opcodeRows, r.mnemonic = i.mnemonic ∧ Sys2Proof.encode i &&& r.mask = r.bits

namespace Sys2Proof.Laws.FixedBits

theorem cls : Statement .cls :=
  ⟨⟨"CLS", 0x00E0, 0xFFFF⟩, by decide, rfl, by decide⟩

theorem ret : Statement .ret :=
  ⟨⟨"RET", 0x00EE, 0xFFFF⟩, by decide, rfl, by decide⟩

theorem jp (nnn : Addr) : Statement (.jp nnn) :=
  ⟨⟨"JP_NNN", 0x1000, 0xF000⟩, by decide, rfl, (encNNN_and_family ..).trans (by decide)⟩

theorem call (nnn : Addr) : Statement (.call nnn) :=
  ⟨⟨"CALL_NNN", 0x2000, 0xF000⟩, by decide, rfl, (encNNN_and_family ..).trans (by decide)⟩

theorem seImm (x : Nibble) (nn : Byte) : Statement (.seImm x nn) :=
  ⟨⟨"SE_VX__NN", 0x3000, 0xF000⟩, by decide, rfl, (encXNN_and_family ..).trans (by decide)⟩

theorem sneImm (x : Nibble) (nn : Byte) : Statement (.sneImm x nn) :=
  ⟨⟨"SNE_VX__NN", 0x4000, 0xF000⟩, by decide, rfl, (encXNN_and_family ..).trans (by decide)⟩

theorem seReg (x : Nibble) (y : Nibble) : Statement (.seReg x y) :=
  ⟨⟨"SE_VX__VY", 0x5000, 0xF00F⟩, by decide, rfl, (encXYN_and_last ..).trans (by decide)⟩

theorem ldImm (x : Nibble) (nn : Byte) : Statement (.ldImm x nn) :=
  ⟨⟨"LD_VX__NN", 0x6000, 0xF000⟩, by decide, rfl, (encXNN_and_family ..).trans (by decide)⟩

theorem addImm (x : Nibble) (nn : Byte) : Statement (.addImm x nn) :=
  ⟨⟨"ADD_VX__NN", 0x7000, 0xF000⟩, by decide, rfl, (encXNN_and_family ..).trans (by decide)⟩

theorem ldReg (x : Nibble) (y : Nibble) : Statement (.ldReg x y) :=
  ⟨⟨"LD_VX__VY", 0x8000, 0xF00F⟩, by decide, rfl, (encXYN_and_last ..).trans (by decide)⟩

theorem orReg (x : Nibble) (y : Nibble) : Statement (.orReg x y) :=
  ⟨⟨"OR_VX__VY", 0x8001, 0xF00F⟩, by decide, rfl, (encXYN_and_last ..).trans (by decide)⟩

theorem andReg (x : Nibble) (y : Nibble) : Statement (.andReg x y) :=
  ⟨⟨"AND_VX__VY", 0x8002, 0xF00F⟩, by decide, rfl, (encXYN_and_last ..).trans (by decide)⟩

theorem addReg (x : Nibble) (y : Nibble) : Statement (.addReg x y) :=
  ⟨⟨"ADD_VX__VY", 0x8004, 0xF00F⟩, by decide, rfl, (encXYN_and_last ..).trans (by decide)⟩

theorem sub (x : Nibble) (y : Nibble) : Statement (.sub x y) :=
  ⟨⟨"SUB_VX__VY", 0x8005, 0xF00F⟩, by decide, rfl, (encXYN_and_last ..).trans (by decide)⟩

theorem shr (x : Nibble) (y : Nibble) : Statement (.shr x y) :=
  ⟨⟨"SHR_VX____VY", 0x8006, 0xF00F⟩, by decide, rfl, (encXYN_and_last ..).trans (by decide)⟩

theorem subn (x : Nibble) (y : Nibble) : Statement (.subn x y) :=
  ⟨⟨"SUBN_VX__VY", 0x8007, 0xF00F⟩, by decide, rfl, (encXYN_and_last ..).trans (by decide)⟩

theorem shl (x : Nibble) (y : Nibble) : Statement (.shl x y) :=
  ⟨⟨"SHL_VX____VY", 0x800E, 0xF00F⟩, by decide, rfl, (encXYN_and_last ..).trans (by decide)⟩

theorem sneReg (x : Nibble) (y : Nibble) : Statement (.sneReg x y) :=
  ⟨⟨"SNE_VX__VY", 0x9000, 0xF00F⟩, by decide, rfl, (encXYN_and_last ..).trans (by decide)⟩

theorem ldI (nnn : Addr) : Statement (.ldI nnn) :=
  ⟨⟨"LD_I__NNN", 0xA000, 0xF000⟩, by decide, rfl, (encNNN_and_family ..).trans (by decide)⟩

theorem jpV0 (nnn : Addr) : Statement (.jpV0 nnn) :=
  ⟨⟨"JP_V0__NNN", 0xB000, 0xF000⟩, by decide, rfl, (encNNN_and_family ..).trans (by decide)⟩

theorem rnd (x : Nibble) (nn : Byte) : Statement (.rnd x nn) :=
  ⟨⟨"RND_VX__NN", 0xC000, 0xF000⟩, by decide, rfl, (encXNN_and_family ..).trans (by decide)⟩

theorem drw (x : Nibble) (y : Nibble) (n : Nat) : Statement (.drw x y n) :=
  ⟨⟨"DRW_VX__VY__N", 0xD000, 0xF000⟩, by decide, rfl, (encXYN_and_family ..).trans (by decide)⟩

theorem skp (x : Nibble) : Statement (.skp x) :=
  ⟨⟨"SKP_VX", 0xE09E, 0xF0FF⟩, by decide, rfl, (encXNN_and_byte ..).trans (by decide)⟩

theorem sknp (x : Nibble) : Statement (.sknp x) :=
  ⟨⟨"SKNP_VX", 0xE0A1, 0xF0FF⟩, by decide, rfl, (encXNN_and_byte ..).trans (by decide)⟩

theorem ldVxDt (x : Nibble) : Statement (.ldVxDt x) :=
  ⟨⟨"LD_VX__DT", 0xF007, 0xF0FF⟩, by decide, rfl, (encXNN_and_byte ..).trans (by decide)⟩

theorem ldVxK (x : Nibble) : Statement (.ldVxK x) :=
  ⟨⟨"LD_VX__K", 0xF00A, 0xF0FF⟩, by decide, rfl, (encXNN_and_byte ..).trans (by decide)⟩

theorem ldDtVx (x : Nibble) : Statement (.ldDtVx x) :=
  ⟨⟨"LD_DT__VX", 0xF015, 0xF0FF⟩, by decide, rfl, (encXNN_and_byte ..).trans (by decide)⟩

theorem ldStVx (x : Nibble) : Statement (.ldStVx x) :=
  ⟨⟨"LD_ST__VX", 0xF018, 0xF0FF⟩, by decide, rfl, (encXNN_and_byte ..).trans (by decide)⟩

theorem addI (x : Nibble) : Statement (.addI x) :=
  ⟨⟨"ADD_I__VX", 0xF01E, 0xF0FF⟩, by decide, rfl, (encXNN_and_byte ..).trans (by decide)⟩

theorem ldF (x : Nibble) : Statement (.ldF x) :=
  ⟨⟨"LD_F__VX", 0xF029, 0xF0FF⟩, by decide, rfl, (encXNN_and_byte ..).trans (by decide)⟩

theorem ldB (x : Nibble) : Statement (.ldB x) :=
  ⟨⟨"LD_B__VX", 0xF033, 0xF0FF⟩, by decide, rfl, (encXNN_and_byte ..).trans (by decide)⟩

theorem storeRegs (x : Nibble) : Statement (.storeRegs x) :=
  ⟨⟨"LD__I___VX", 0xF055, 0xF0FF⟩, by decide, rfl, (encXNN_and_byte ..).trans (by decide)⟩

theorem loadRegs (x : Nibble) : Statement (.loadRegs x) :=
  ⟨⟨"LD_VX___I", 0xF065, 0xF0FF⟩, by decide, rfl, (encXNN_and_byte ..).trans (by decide)⟩

end Sys2Proof.Laws.FixedBits
end

