-- ==== Sys2Proof/Tests/Slice0.lean ====
section
/-! SUPPORT. Tests and witnesses. Expected values come from the spec: words from the encoding column of R67, steps from the vectors of
spec/95_test_vectors.md (the vector's name stands above each test). Each witness shows a concrete state and operands that meet
all hypotheses of one statement, or of one clause of it at a boundary value. -/

namespace Sys2Proof.Tests

open Sys2Proof.Machine

/-- The next state of a result, if there is one. -/
def nextOf : Result → Option State
  | .next t => some t
  | .fault _ => none
  | .refused _ => none

/-- The start state of the vectors of spec/95: the reset state with a program loaded. -/
def loaded : State := { State.reset with status := .run }

/-- A key snapshot and a random byte for the coming step. -/
def withInputs (keys : BitVec 16) (rnd : Byte) (s : State) : State := s.supply keys rnd

/-- One byte in memory. -/
def withByte (a : Nat) (b : Byte) (s : State) : State := s.setMem (s.mem.write a b)

/-- Sixteen entries in use on the stack, each the address `a`. -/
def withStack (n : Fin 17) (a : Addr) (s : State) : State := { s with sp := n, stack := Vector.replicate 16 a }

/-- The state after one step from `s` with the word `w` at pc. -/
def afterWord (w : Nat) (s : State) : Option State := nextOf (step (s.withFetchWord 16 w))

/-- A next state with a decidable property, found by evaluation. -/
theorem exists_next {r : Result} {P : State → Prop} [DecidablePred P]
    (h : (nextOf r).any (fun t => decide (P t)) = true) : ∃ t, r = .next t ∧ P t := by
  cases r with
  | next t => exact ⟨t, rfl, by simpa [nextOf] using h⟩
  | fault e => simp [nextOf] at h
  | refused e => simp [nextOf] at h

/-! Well-formedness: the one check. -/

theorem test_wf_refuses_sixteen_rows : (Instr.drw 0x0 0x1 16).wellFormed = false := by decide
theorem test_wf_accepts_fifteen_rows : (Instr.drw 0x0 0x1 15).wellFormed = true := by decide

/-! Decoding: one word per row of R67, written out from its encoding column. -/

theorem test_decode_cls : decode 0b0000_0000_1110_0000#16 = .ok (.cls) := by decide
theorem test_decode_ret : decode 0b0000_0000_1110_1110#16 = .ok (.ret) := by decide
theorem test_decode_jp : decode 0b0001_0010_0011_0100#16 = .ok (.jp 0x234) := by decide
theorem test_decode_call : decode 0b0010_0011_0000_0001#16 = .ok (.call 0x301) := by decide
theorem test_decode_seImm : decode 0b0011_0011_0100_0010#16 = .ok (.seImm 0x3 0x42) := by decide
theorem test_decode_sneImm : decode 0b0100_0011_0100_0010#16 = .ok (.sneImm 0x3 0x42) := by decide
theorem test_decode_seReg : decode 0b0101_0001_0010_0000#16 = .ok (.seReg 0x1 0x2) := by decide
theorem test_decode_ldImm : decode 0b0110_1010_0000_1111#16 = .ok (.ldImm 0xA 0x0F) := by decide
theorem test_decode_addImm : decode 0b0111_0010_0010_0000#16 = .ok (.addImm 0x2 0x20) := by decide
theorem test_decode_ldReg : decode 0b1000_0001_0010_0000#16 = .ok (.ldReg 0x1 0x2) := by decide
theorem test_decode_orReg : decode 0b1000_0001_0010_0001#16 = .ok (.orReg 0x1 0x2) := by decide
theorem test_decode_andReg : decode 0b1000_0001_0010_0010#16 = .ok (.andReg 0x1 0x2) := by decide
theorem test_decode_addReg : decode 0b1000_0001_0010_0100#16 = .ok (.addReg 0x1 0x2) := by decide
theorem test_decode_sub : decode 0b1000_0001_0010_0101#16 = .ok (.sub 0x1 0x2) := by decide
theorem test_decode_shr : decode 0b1000_0011_0101_0110#16 = .ok (.shr 0x3 0x5) := by decide
theorem test_decode_subn : decode 0b1000_0001_0010_0111#16 = .ok (.subn 0x1 0x2) := by decide
theorem test_decode_shl : decode 0b1000_0011_0101_1110#16 = .ok (.shl 0x3 0x5) := by decide
theorem test_decode_sneReg : decode 0b1001_0001_0010_0000#16 = .ok (.sneReg 0x1 0x2) := by decide
theorem test_decode_ldI : decode 0b1010_0010_0101_0000#16 = .ok (.ldI 0x250) := by decide
theorem test_decode_jpV0 : decode 0b1011_0011_0000_0001#16 = .ok (.jpV0 0x301) := by decide
theorem test_decode_rnd : decode 0b1100_0011_0000_1111#16 = .ok (.rnd 0x3 0x0F) := by decide
theorem test_decode_drw : decode 0b1101_0000_0001_0010#16 = .ok (.drw 0x0 0x1 2) := by decide
theorem test_decode_skp : decode 0b1110_0001_1001_1110#16 = .ok (.skp 0x1) := by decide
theorem test_decode_sknp : decode 0b1110_0001_1010_0001#16 = .ok (.sknp 0x1) := by decide
theorem test_decode_ldVxDt : decode 0b1111_0011_0000_0111#16 = .ok (.ldVxDt 0x3) := by decide
theorem test_decode_ldVxK : decode 0b1111_0010_0000_1010#16 = .ok (.ldVxK 0x2) := by decide
theorem test_decode_ldDtVx : decode 0b1111_0101_0001_0101#16 = .ok (.ldDtVx 0x5) := by decide
theorem test_decode_ldStVx : decode 0b1111_0101_0001_1000#16 = .ok (.ldStVx 0x5) := by decide
theorem test_decode_addI : decode 0b1111_0010_0001_1110#16 = .ok (.addI 0x2) := by decide
theorem test_decode_ldF : decode 0b1111_0010_0010_1001#16 = .ok (.ldF 0x2) := by decide
theorem test_decode_ldB : decode 0b1111_0101_0011_0011#16 = .ok (.ldB 0x5) := by decide
theorem test_decode_storeRegs : decode 0b1111_0010_0101_0101#16 = .ok (.storeRegs 0x2) := by decide
theorem test_decode_loadRegs : decode 0b1111_0010_0110_0101#16 = .ok (.loadRegs 0x2) := by decide

/-! Reserved words are refused (R68, R69). -/

theorem test_decode_refuses_5121 : decode 0x5121 = .error (.unsupportedInstruction 0x5121) := by decide
theorem test_decode_refuses_8013 : decode 0x8013 = .error (.unsupportedInstruction 0x8013) := by decide
theorem test_decode_refuses_00E1 : decode 0x00E1 = .error (.unsupportedInstruction 0x00E1) := by decide
theorem test_decode_refuses_E100 : decode 0xE100 = .error (.unsupportedInstruction 0xE100) := by decide
theorem test_decode_refuses_F000 : decode 0xF000 = .error (.unsupportedInstruction 0xF000) := by decide
theorem test_decodeTableWord_high_byte_first : decodeTableWord 16 0x6A0F = some (.ldImm 0xA 0x0F) := by decide

/-! One step per test. -/

/-- D1. -/
theorem test_step_cls :
    (afterWord 0x00E0 ({ loaded with disp := Vector.replicate 32 1 })).map (fun t => (t.disp == Display.blank, t.redraw)) = some (true, true) := by decide

/-- F1. -/
theorem test_step_ret :
    (afterWord 0x00EE ((withStack 1 0x204 loaded).setPc 0x310)).map (fun t => (t.sp.val, t.pc)) = some (0, 0x206) := by decide

/-- F2. -/
theorem test_step_ret_underflow :
    (afterWord 0x00EE (loaded)).map (fun t => t.status) = some (.halted (.stackUnderflow 0x200)) := by decide

/-- F4. -/
theorem test_step_jp :
    (afterWord 0x1234 (loaded)).map (fun t => t.pc) = some 0x234 := by decide

/-- F5. -/
theorem test_step_jp_top :
    (afterWord 0x1FFF (loaded)).map (fun t => t.pc) = some 0xFFF := by decide

/-- F7. -/
theorem test_step_call :
    (afterWord 0x2300 (loaded)).map (fun t => (t.stack[0], t.sp.val, t.pc)) = some (0x200, 1, 0x300) := by decide

/-- F8. -/
theorem test_step_call_overflow :
    (afterWord 0x2300 (withStack 16 0x204 loaded)).map (fun t => t.status) = some (.halted (.stackOverflow 0x200)) := by decide

/-- F9. -/
theorem test_step_seImm_taken :
    (afterWord 0x3342 (loaded.setReg 3 0x42)).map (fun t => t.pc) = some 0x204 := by decide

/-- F10. -/
theorem test_step_seImm_not_taken :
    (afterWord 0x3342 (loaded.setReg 3 0x41)).map (fun t => t.pc) = some 0x202 := by decide

/-- F11. -/
theorem test_step_sneImm_taken :
    (afterWord 0x4342 (loaded.setReg 3 0x41)).map (fun t => t.pc) = some 0x204 := by decide

/-- F12. -/
theorem test_step_sneImm_not_taken :
    (afterWord 0x4342 (loaded.setReg 3 0x42)).map (fun t => t.pc) = some 0x202 := by decide

/-- F13. -/
theorem test_step_seReg_taken :
    (afterWord 0x5120 ((loaded.setReg 1 7).setReg 2 7)).map (fun t => t.pc) = some 0x204 := by decide

/-- F14. -/
theorem test_step_seReg_not_taken :
    (afterWord 0x5120 ((loaded.setReg 1 7).setReg 2 8)).map (fun t => t.pc) = some 0x202 := by decide

/-- F16. -/
theorem test_step_sneReg_taken :
    (afterWord 0x9120 ((loaded.setReg 1 7).setReg 2 8)).map (fun t => t.pc) = some 0x204 := by decide

/-- F17. -/
theorem test_step_sneReg_not_taken :
    (afterWord 0x9110 (loaded.setReg 1 7)).map (fun t => t.pc) = some 0x202 := by decide

/-- F19. -/
theorem test_step_jpV0 :
    (afterWord 0xB300 (loaded.setReg 0 0x10)).map (fun t => t.pc) = some 0x310 := by decide

/-- F21. -/
theorem test_step_jpV0_not_masked :
    (afterWord 0xBFFF (loaded.setReg 0 0xFF)).map (fun t => t.pc) = some 0x10FE := by decide

/-- A1. -/
theorem test_step_ldImm :
    (afterWord 0x6A0F (loaded)).map (fun t => t.reg 0xA) = some 0x0F := by decide

/-- A2. -/
theorem test_step_addImm :
    (afterWord 0x7220 (loaded.setReg 2 0xF0)).map (fun t => (t.reg 2, t.reg 0xF)) = some (0x10, 0) := by decide

/-- A3. -/
theorem test_step_addImm_to_VF :
    (afterWord 0x7F01 (loaded.setReg 0xF 0xFF)).map (fun t => t.reg 0xF) = some 0x00 := by decide

/-- A4. -/
theorem test_step_ldReg :
    (afterWord 0x8010 (loaded.setReg 1 0x33)).map (fun t => t.reg 0) = some 0x33 := by decide

/-- A5. -/
theorem test_step_orReg :
    (afterWord 0x8011 (((loaded.setReg 0 0x0C).setReg 1 0x0A).setReg 0xF 5)).map (fun t => (t.reg 0, t.reg 0xF)) = some (0x0E, 5) := by decide

/-- A6. -/
theorem test_step_andReg :
    (afterWord 0x8012 (((loaded.setReg 0 0x0C).setReg 1 0x0A).setReg 0xF 5)).map (fun t => (t.reg 0, t.reg 0xF)) = some (0x08, 5) := by decide

/-- A9. -/
theorem test_step_addReg_carry :
    (afterWord 0x8014 ((loaded.setReg 0 0x80).setReg 1 0x80)).map (fun t => (t.reg 0, t.reg 0xF)) = some (0x00, 1) := by decide

/-- A12. -/
theorem test_step_addReg_to_VF :
    (afterWord 0x8F14 ((loaded.setReg 0xF 0xFF).setReg 1 0x02)).map (fun t => t.reg 0xF) = some 0x01 := by decide

/-- A16. -/
theorem test_step_sub_equal :
    (afterWord 0x8015 ((loaded.setReg 0 1).setReg 1 1)).map (fun t => (t.reg 0, t.reg 0xF)) = some (0x00, 0) := by decide

/-- A18. -/
theorem test_step_sub_to_VF :
    (afterWord 0x8F15 ((loaded.setReg 0xF 5).setReg 1 3)).map (fun t => t.reg 0xF) = some 0xFE := by decide

/-- A24. -/
theorem test_step_shr :
    (afterWord 0x8356 ((loaded.setReg 3 4).setReg 5 0xFF)).map (fun t => (t.reg 3, t.reg 0xF, t.reg 5)) = some (0x02, 0, 0xFF) := by decide

/-- A25. -/
theorem test_step_shr_VF :
    (afterWord 0x8F06 (loaded.setReg 0xF 0xFF)).map (fun t => t.reg 0xF) = some 0x00 := by decide

/-- A27. -/
theorem test_step_subn_equal :
    (afterWord 0x8017 ((loaded.setReg 0 5).setReg 1 5)).map (fun t => (t.reg 0, t.reg 0xF)) = some (0x00, 1) := by decide

/-- A30. -/
theorem test_step_subn_from_VF :
    (afterWord 0x80F7 ((loaded.setReg 0 3).setReg 0xF 5)).map (fun t => (t.reg 0, t.reg 0xF)) = some (0xFE, 1) := by decide

/-- A32. -/
theorem test_step_shl :
    (afterWord 0x830E (loaded.setReg 3 0x81)).map (fun t => (t.reg 3, t.reg 0xF)) = some (0x02, 1) := by decide

/-- A34. -/
theorem test_step_shl_VF :
    (afterWord 0x8F0E (loaded.setReg 0xF 0x81)).map (fun t => t.reg 0xF) = some 0x02 := by decide

/-- A37. -/
theorem test_step_rnd :
    (afterWord 0xC30F (withInputs 0 0xB7 loaded)).map (fun t => t.reg 3) = some 0x07 := by decide

/-- M1. -/
theorem test_step_ldI :
    (afterWord 0xA250 (loaded)).map (fun t => t.iReg) = some 0x250 := by decide

/-- M4. -/
theorem test_step_addI :
    (afterWord 0xF21E ((loaded.setI 0x1000).setReg 2 5)).map (fun t => t.iReg) = some 0x005 := by decide

/-- M5. -/
theorem test_step_addI_no_flag :
    (afterWord 0xFF1E ((loaded.setI 0xF80).setReg 0xF 0xFF)).map (fun t => (t.iReg, t.reg 0xF)) = some (0x07F, 0xFF) := by decide

/-- M6. -/
theorem test_step_ldF :
    (afterWord 0xF029 (loaded.setReg 0 0x0A)).map (fun t => t.iReg) = some 0x082 := by decide

/-- M9. -/
theorem test_step_ldF_not_masked :
    (afterWord 0xF029 (loaded.setReg 0 0xFF)).map (fun t => t.iReg) = some 0x54B := by decide

/-- M10. -/
theorem test_step_ldB :
    (afterWord 0xF533 ((loaded.setI 0x300).setReg 5 254)).map (fun t => t.mem.readBytes 0x300 3) = some [2, 5, 4] := by decide

/-- M14. -/
theorem test_step_ldB_out_of_bounds :
    (afterWord 0xF533 ((loaded.setI 0xFFE).setReg 5 7)).map (fun t => t.status) = some (.halted (.addressOutOfBounds 0x1000 .write 0x200)) := by decide

/-- M15. -/
theorem test_step_storeRegs :
    (afterWord 0xF255 ((((loaded.setI 0x300).setReg 0 1).setReg 1 2).setReg 2 3)).map (fun t => (t.mem.readBytes 0x300 4, t.iReg)) = some ([1, 2, 3, 0], 0x300) := by decide

/-- M18. -/
theorem test_step_storeRegs_out_of_bounds :
    (afterWord 0xFF55 ((loaded.setI 0xFF1).setReg 0xF 9)).map (fun t => (t.status, t.mem.read 0xFFF)) = some (.halted (.addressOutOfBounds 0x1000 .write 0x200), 0) := by decide

/-- M19. -/
theorem test_step_loadRegs :
    (afterWord 0xF265 (withByte 0x302 3 (withByte 0x301 2 (withByte 0x300 1 (loaded.setI 0x300))))).map (fun t => (t.reg 0, t.reg 1, t.reg 2, t.iReg)) = some (1, 2, 3, 0x303) := by decide

/-- M20. -/
theorem test_step_loadRegs_not_masked :
    (afterWord 0xF065 (withByte 0xFFF 0x77 (loaded.setI 0xFFF))).map (fun t => (t.reg 0, t.iReg)) = some (0x77, 0x1000) := by decide

/-- D8. -/
theorem test_step_drw_wraps :
    (afterWord 0xD012 (((withByte 0x301 0x81 (withByte 0x300 0xC0 (loaded.setI 0x300))).setReg 0 0x3E).setReg 1 0x1F)).map (fun t => (t.disp.pixel 62 31, t.disp.pixel 63 31, t.disp.pixel 62 0, t.disp.pixel 5 0, t.disp.pixel 0 0, t.reg 0xF)) = some (true, true, true, true, false, 0) := by decide

/-- D4. -/
theorem test_step_drw_collides :
    (afterWord 0xD011 ({ withByte 0x300 0xF0 (loaded.setI 0x300) with disp := Display.blank.flip 1 0 })).map (fun t => (t.disp.pixel 0 0, t.disp.pixel 1 0, t.reg 0xF, t.redraw)) = some (true, false, 1, true) := by decide

/-- K1. -/
theorem test_step_skp :
    (afterWord 0xE19E (withInputs 0x0080 0 (loaded.setReg 1 7))).map (fun t => t.pc) = some 0x204 := by decide

/-- K3. -/
theorem test_step_skp_no_such_key :
    (afterWord 0xE19E (withInputs 0xFFFF 0 (loaded.setReg 1 0x10))).map (fun t => t.status) = some (.halted (.keyIndexOutOfRange 0x10 0x200)) := by decide

/-- K4. -/
theorem test_step_sknp :
    (afterWord 0xE1A1 (loaded.setReg 1 7)).map (fun t => t.pc) = some 0x204 := by decide

/-- K5. -/
theorem test_step_sknp_pressed :
    (afterWord 0xE1A1 (withInputs 0x0080 0 (loaded.setReg 1 7))).map (fun t => t.pc) = some 0x202 := by decide

/-- K8. -/
theorem test_step_ldVxDt :
    (afterWord 0xF307 ({ loaded with dt := 0x10 })).map (fun t => (t.reg 3, t.dt)) = some (0x10, 0x0F) := by decide

/-- K10. -/
theorem test_step_ldVxK_waits :
    (afterWord 0xF20A ({ loaded with dt := 5, st := 1 })).map (fun t => (t.pc, t.reg 2, t.dt, t.st)) = some (0x200, 0, 4, 0) := by decide

/-- K11. -/
theorem test_step_ldVxK_lowest :
    (afterWord 0xF20A (withInputs 0x1080 0 loaded)).map (fun t => (t.reg 2, t.pc)) = some (0x07, 0x202) := by decide

/-- K13. -/
theorem test_step_ldDtVx :
    (afterWord 0xF015 (loaded.setReg 0 3)).map (fun t => t.dt) = some 2 := by decide

/-- K17. -/
theorem test_step_ldStVx :
    (afterWord 0xF018 (loaded.setReg 0 0xFF)).map (fun t => t.st) = some 0xFE := by decide

/-- E5. -/
theorem test_step_fetch_at_the_top :
    (afterWord 0x1200 (loaded.setPc 0xFFE)).map (fun t => t.pc) = some 0x200 := by decide

/-- E12. -/
theorem test_step_no_tick_on_a_fault :
    (afterWord 0x8013 ({ loaded with dt := 5 })).map (fun t => (t.status, t.dt)) = some (.halted (.unsupportedInstruction 0x8013 0x200), 5) := by decide

/-! Witnesses: encoding. -/

theorem witness_DecodeOfEncodeIsIdentity :
    (Instr.drw 0xF 0xF 15).wellFormed = true ∧ (Instr.drw 0x0 0x0 0).wellFormed = true := by decide

theorem witness_EncodeOfDecodeIsIdentity : decode 0x8F16 = .ok (.shr 0xF 0x1) := by decide

/-- A word of each kind: one that decodes, one that matches a row, one that matches none. -/
theorem witness_DecodeFollowsTheOpcodeMap :
    decode 0xF065 = .ok (.loadRegs 0x0) ∧ (⟨"CLS", 0x00E0, 0xFFFF⟩ ∈ opcodeRows ∧ 0x00E0#16 &&& 0xFFFF#16 = 0x00E0#16) ∧
      (∀ r ∈ opcodeRows, 0x8013#16 &&& r.mask ≠ r.bits) := by decide

/-! Witnesses: the step. -/

/-- A return on an empty stack, at 0x200. -/
def emptyReturn : State := loaded.withFetchWord 16 0x00EE

/-- A return to 0x206, at 0x200. -/
def fullReturn : State := (withStack 16 0x204 loaded).withFetchWord 16 0x00EE

theorem witness_StepRunsTheDecodedInstruction_run :
    fullReturn.status = .run ∧ fullReturn.pc.toNat ≤ 0xFFE ∧
      decodeBytes (fullReturn.mem.read fullReturn.pc.toNat) (fullReturn.mem.read (fullReturn.pc.toNat + 1)) = .ok .ret ∧
      ∃ t, exec .ret fullReturn = .next t ∧ t.status = .run :=
  ⟨by decide, by decide, by decide, exists_next (by decide)⟩

theorem witness_StepRunsTheDecodedInstruction_halts :
    emptyReturn.status = .run ∧ emptyReturn.pc.toNat ≤ 0xFFE ∧
      decodeBytes (emptyReturn.mem.read emptyReturn.pc.toNat) (emptyReturn.mem.read (emptyReturn.pc.toNat + 1)) = .ok .ret ∧
      ∃ t, exec .ret emptyReturn = .next t ∧ t.status = .halted (.stackUnderflow 0x200) :=
  ⟨by decide, by decide, by decide, exists_next (by decide)⟩

theorem witness_FetchIsBigEndian : (loaded.setPc 0xFFE).pc.toNat ≤ 0xFFE := by decide

theorem witness_FetchOutOfRangeHalts :
    (loaded.setPc 0xFFF).status = .run ∧ 0xFFE < (loaded.setPc 0xFFF).pc.toNat := by decide

/-- The word 0x0000 of a program of no bytes (vector E9). -/
theorem witness_UnsupportedWordHalts :
    loaded.status = .run ∧ loaded.pc.toNat ≤ 0xFFE ∧
      0x0000 = wordOfBytes (loaded.mem.read loaded.pc.toNat) (loaded.mem.read (loaded.pc.toNat + 1)) ∧
      ∀ r ∈ opcodeRows, 0x0000 &&& r.mask ≠ r.bits := by decide

theorem witness_StatusGatesTheStep :
    { State.reset with status := Status.uninit }.status = .uninit ∧ State.reset.status = .init ∧
      { loaded with status := .halted (.stackOverflow 0x200) }.status = .halted (.stackOverflow 0x200) := by decide

theorem witness_HostStepReturnsOkOrError_ok :
    ∃ t, step (fullReturn.supply 0x8000 0xFF) = .next t ∧ t.status = .run := exists_next (by decide)

theorem witness_HostStepReturnsOkOrError_error :
    ∃ t, step (emptyReturn.supply 0x8000 0xFF) = .next t ∧ t.status = .halted (.stackUnderflow 0x200) :=
  exists_next (by decide)

theorem witness_FaultingStepCommitsNothing :
    ∃ t, step emptyReturn = .next t ∧ t.status = .halted (.stackUnderflow 0x200) := exists_next (by decide)

theorem witness_RunningStepAlwaysCompletes : loaded.status = .run := by decide

/-- Every disjunct of the conclusion occurs: the call, the return, the key skips, the stores, the load and the draw. -/
theorem witness_EveryFaultComesFromItsInstruction :
    (∃ t, exec (.call 0x300) (withStack 16 0x204 loaded) = .next t ∧ t.status = .halted (.stackOverflow 0x200)) ∧
      (∃ t, exec .ret loaded = .next t ∧ t.status = .halted (.stackUnderflow 0x200)) ∧
      (∃ t, exec (.skp 1) (loaded.setReg 1 0x10) = .next t ∧ t.status = .halted (.keyIndexOutOfRange 0x10 0x200)) ∧
      (∃ t, exec (.ldB 1) (loaded.setI 0xFFE) = .next t ∧ t.status = .halted (.addressOutOfBounds 0x1000 .write 0x200)) ∧
      (∃ t, exec (.storeRegs 1) (loaded.setI 0xFFF) = .next t ∧
        t.status = .halted (.addressOutOfBounds 0x1000 .write 0x200)) ∧
      (∃ t, exec (.loadRegs 0) (loaded.setI 0x1000) = .next t ∧
        t.status = .halted (.addressOutOfBounds 0x1000 .read 0x200)) ∧
      ∃ t, exec (.drw 0 1 2) (loaded.setI 0xFFF) = .next t ∧ t.status = .halted (.addressOutOfBounds 0x1000 .read 0x200) :=
  ⟨exists_next (by decide), exists_next (by decide), exists_next (by decide), exists_next (by decide),
    exists_next (by decide), exists_next (by decide), exists_next (by decide)⟩

/-- A timer write and another instruction, each as the next instruction of a step that completes. -/
theorem witness_TimersTickOncePerStep :
    ((loaded.withFetchWord 16 0xF015).nextInstr = some (.ldDtVx 0) ∧
      ∃ t, step (loaded.withFetchWord 16 0xF015) = .next t ∧ t.status = .run) ∧
    ((loaded.withFetchWord 16 0xF018).nextInstr = some (.ldStVx 0) ∧
      ∃ t, step (loaded.withFetchWord 16 0xF018) = .next t ∧ t.status = .run) ∧
    fullReturn.nextInstr = some .ret ∧ ∃ t, step fullReturn = .next t ∧ t.status = .run :=
  ⟨⟨by decide, exists_next (by decide)⟩, ⟨by decide, exists_next (by decide)⟩, by decide, exists_next (by decide)⟩

/-! Witnesses: invariants. -/

/-- A state with every bounded entry at its largest value. -/
def fullState : State := ((withStack 16 0xFFE loaded).setI 0x1000).setPc 0x10FE

theorem witness_Inv_at_the_bounds : Inv fullState where
  memCanonical := by decide
  memInRange := by decide
  indexInRange := by decide
  pcInRange := by decide
  stackInRange := by decide
  haltedByStep n := by simp [fullState, withStack, loaded]

theorem witness_StepKeepsTheInvariant : Inv fullReturn ∧ ∃ t, step fullReturn = .next t ∧ t.status = .run :=
  ⟨{ memCanonical := by decide
     memInRange := by decide
     indexInRange := by decide
     pcInRange := by decide
     stackInRange := by decide
     haltedByStep := fun n => by rw [show fullReturn.status = .run from rfl]; simp },
    exists_next (by decide)⟩

theorem witness_LoadProgramKeepsTheInvariant :
    Inv State.reset ∧ ∃ t, State.reset.loadProgram [0x12, 0x00] = .next t ∧ t.status = .run :=
  ⟨{ memCanonical := by decide
     memInRange := by decide
     indexInRange := by decide
     pcInRange := by decide
     stackInRange := by decide
     haltedByStep := fun n => by simp [State.reset] },
    exists_next (by decide)⟩

/-! Witnesses: whole-machine rules. -/

/-- One completing execution for each way of updating pc. -/
theorem witness_PcUpdateOfEveryInstruction :
    loaded.status = .run ∧ fullReturn.status = .run ∧
      (∃ t, exec (.jp 0xFFF) loaded = .next t ∧ t.status = .run) ∧
      (∃ t, exec (.jpV0 0xFFF) (loaded.setReg 0 0xFF) = .next t ∧ t.status = .run) ∧
      (∃ t, exec .ret fullReturn = .next t ∧ t.status = .run) ∧
      (∃ t, exec (.seImm 0 0) loaded = .next t ∧ t.status = .run) ∧
      (∃ t, exec (.ldVxK 0) loaded = .next t ∧ t.status = .run) ∧
      (∃ t, exec (.ldVxK 0) (withInputs 1 0 loaded) = .next t ∧ t.status = .run) ∧
      ∃ t, exec .cls loaded = .next t ∧ t.status = .run :=
  ⟨by decide, by decide, exists_next (by decide), exists_next (by decide), exists_next (by decide), exists_next (by decide),
    exists_next (by decide), exists_next (by decide), exists_next (by decide)⟩

theorem witness_StackReachedOnlyByCallAndReturn : (∀ nnn, Instr.jp 0x200 ≠ .call nnn) ∧ Instr.jp 0x200 ≠ .ret :=
  ⟨nofun, nofun⟩

theorem witness_MemoryWrittenOnlyByBcdAndStore :
    (∃ t, step (((loaded.setI 0x300).setReg 5 254).withFetchWord 16 0xF533) = .next t ∧
      t.mem.read 0x301 ≠ (((loaded.setI 0x300).setReg 5 254).withFetchWord 16 0xF533).mem.read 0x301) ∧
    ∃ t, step (((loaded.setI 0xFFF).setReg 0 9).withFetchWord 16 0xF055) = .next t ∧
      t.mem.read 0xFFF ≠ (((loaded.setI 0xFFF).setReg 0 9).withFetchWord 16 0xF055).mem.read 0xFFF :=
  ⟨exists_next (by decide), exists_next (by decide)⟩

/-- A flag, a collision, a destination and a block load change VF. -/
theorem witness_FlagRegisterHasOnlyItsWriters :
    (∃ t, exec (.addReg 0 1) ((loaded.setReg 0 0xFF).setReg 1 1) = .next t ∧
      t.reg 0xF ≠ ((loaded.setReg 0 0xFF).setReg 1 1).reg 0xF) ∧
    (∃ t, exec (.drw 0 1 0) (loaded.setReg 0xF 7) = .next t ∧ t.reg 0xF ≠ (loaded.setReg 0xF 7).reg 0xF) ∧
    (∃ t, exec (.ldImm 0xF 1) loaded = .next t ∧ t.reg 0xF ≠ loaded.reg 0xF) ∧
    ∃ t, exec (.loadRegs 0xF) (withByte 0x40F 0x99 (loaded.setI 0x400)) = .next t ∧
      t.reg 0xF ≠ (withByte 0x40F 0x99 (loaded.setI 0x400)).reg 0xF :=
  ⟨exists_next (by decide), exists_next (by decide), exists_next (by decide), exists_next (by decide)⟩

/-- A step that raises redraw, and one that keeps it raised. -/
theorem witness_RedrawIsRaisedByDrawingOnly :
    ((loaded.withFetchWord 16 0xD010).redraw = false ∧ (loaded.withFetchWord 16 0xD010).nextInstr = some (.drw 0 1 0) ∧
      ∃ t, step (loaded.withFetchWord 16 0xD010) = .next t ∧ (t.redraw = true ∧ t.status = .run)) ∧
    ((loaded.withFetchWord 16 0x00E0).nextInstr = some .cls ∧
      ∃ t, step (loaded.withFetchWord 16 0x00E0) = .next t ∧ (t.redraw = true ∧ t.status = .run)) ∧
    ({ fullReturn with redraw := true }.redraw = true ∧
      ∃ t, step { fullReturn with redraw := true } = .next t ∧ t.redraw = true) :=
  ⟨⟨by decide, by decide, exists_next (by decide)⟩, ⟨by decide, exists_next (by decide)⟩, rfl, exists_next (by decide)⟩

theorem witness_DisplayReachedOnlyByClearAndDraw :
    Instr.ret ≠ .cls ∧ ∀ x y n, Instr.ret ≠ .drw x y n := ⟨by decide, nofun⟩

theorem witness_InputsReadOnlyByTheirInstructions :
    (∀ x, Instr.rnd 0 0xFF ≠ .skp x ∧ Instr.rnd 0 0xFF ≠ .sknp x ∧ Instr.rnd 0 0xFF ≠ .ldVxK x) ∧
      (∀ x nn, Instr.skp 0 ≠ .rnd x nn) ∧ ∃ t, exec (.rnd 0 0xFF) (withInputs 1 2 loaded) = .next t ∧ t.rnd = 2 :=
  ⟨fun _ => ⟨nofun, nofun, nofun⟩, nofun, exists_next (by decide)⟩

theorem witness_TimersReachedOnlyByTheirInstructions :
    (∀ x, Instr.ldStVx 0 ≠ .ldVxDt x ∧ Instr.ldStVx 0 ≠ .ldDtVx x) ∧ ∀ x, Instr.ldVxDt 0 ≠ .ldStVx x :=
  ⟨fun _ => ⟨nofun, nofun⟩, nofun⟩

theorem witness_IndexAndMemoryReachedOnlyByTheirInstructions :
    (∀ x, Instr.ldF 0 ≠ .ldB x ∧ Instr.ldF 0 ≠ .storeRegs x ∧ Instr.ldF 0 ≠ .loadRegs x) ∧
      (∀ x y n, Instr.ldF 0 ≠ .drw x y n) ∧
      (∀ x, Instr.jp 0 ≠ .ldB x ∧ Instr.jp 0 ≠ .storeRegs x ∧ Instr.jp 0 ≠ .loadRegs x) ∧
      (∀ x y n, Instr.jp 0 ≠ .drw x y n) ∧ (∀ nnn, Instr.jp 0 ≠ .ldI nnn) ∧
      ∀ x, Instr.jp 0 ≠ .addI x ∧ Instr.jp 0 ≠ .ldF x :=
  ⟨fun _ => ⟨nofun, nofun, nofun⟩, nofun, fun _ => ⟨nofun, nofun, nofun⟩, nofun, nofun, fun _ => ⟨nofun, nofun⟩⟩

/-! Witnesses: control transfer. -/

theorem witness_CallPushesItsOwnAddress_pushes :
    ((withStack 15 0x204 loaded).setPc 0xFFE).sp.val < 16 ∧ ((withStack 15 0x204 loaded).setPc 0xFFE).pc.toNat ≤ 0xFFE := by
  decide

theorem witness_CallPushesItsOwnAddress_overflows : (withStack 16 0x204 loaded).sp.val = 16 := by decide

theorem witness_ReturnGoesPastTheCall_pops :
    (0 < (withStack 1 0xFFE loaded).sp.val ∧
      (withStack 1 0xFFE loaded).stack[(withStack 1 0xFFE loaded).sp.val - 1]? = some 0xFFE) ∧
    (0 < (withStack 16 0x204 loaded).sp.val ∧
      (withStack 16 0x204 loaded).stack[(withStack 16 0x204 loaded).sp.val - 1]? = some 0x204) := by decide

theorem witness_ReturnGoesPastTheCall_underflows : loaded.sp.val = 0 := by decide

theorem witness_CallThenReturnResumesAfterTheCall :
    ((withStack 15 0x204 loaded).setPc 0xFFE).sp.val < 16 ∧ ((withStack 15 0x204 loaded).setPc 0xFFE).pc.toNat ≤ 0xFFE ∧
      14 < ((withStack 15 0x204 loaded).setPc 0xFFE).sp.val := by decide

theorem witness_KeySkipsTestTheSnapshot :
    ((loaded.setReg 1 0xF).reg 1).toNat ≤ 0xF ∧ 0xF < ((loaded.setReg 1 0x10).reg 1).toNat := by decide

/-! Witnesses: ALU. -/

/-- Both sides of the strict comparison; the operand cases are the register numbers 0x0 and 0xF. -/
theorem witness_SubtractSetsTheStrictFlag :
    ((0 : Byte) = if (loaded.reg 1).toNat < (loaded.reg 0).toNat then 1 else 0) ∧
    ((1 : Byte) = if (loaded.reg 1).toNat < ((loaded.setReg 0 1).reg 0).toNat then 1 else 0) ∧
      (0x0 : Nibble) ≠ 0xF := by decide

theorem witness_ReversedSubtractSetsTheNoBorrowFlag :
    ((1 : Byte) = if (loaded.reg 0).toNat ≤ (loaded.reg 1).toNat then 1 else 0) ∧
    ((0 : Byte) = if ((loaded.setReg 0 1).reg 0).toNat ≤ (loaded.reg 1).toNat then 1 else 0) ∧
      (0x0 : Nibble) ≠ 0xF := by decide

/-- The clauses for X ≠ 0xF of the shifts, 7XNN, 8XY1, 8XY2 and 8XY4. -/
theorem witness_register_other_than_VF : (0xE : Nibble) ≠ 0xF ∧ (0x0 : Nibble) ≠ 0xF := by decide

/-! Witnesses: index register and memory. -/

theorem witness_BcdStoresTheDecimalDigits :
    (loaded.setI 0xFFD).iReg.toNat + 2 ≤ 0xFFF ∧ 0xFFF < (loaded.setI 0xFFE).iReg.toNat + 2 := by decide

theorem witness_StoreWritesTheRegisterBlock :
    (loaded.setI 0xFF0).iReg.toNat + (0xF : Nibble).toNat ≤ 0xFFF ∧ (0xF : Nibble).toNat ≤ (0xF : Nibble).toNat ∧
      0xFFF < (loaded.setI 0xFF1).iReg.toNat + (0xF : Nibble).toNat := by decide

theorem witness_LoadReadsTheRegisterBlock :
    (loaded.setI 0xFFF).iReg.toNat + (0x0 : Nibble).toNat ≤ 0xFFF ∧ (0x0 : Nibble).toNat ≤ (0x0 : Nibble).toNat := by decide

/-- Each of the four forms, one byte past the end. -/
theorem witness_OutOfRangeBlockAccessHalts :
    ((Instr.ldB 1 = .ldB 1 ∧ 3 = 3 ∧ Access.write = .write) ∧ 0 < 3 ∧ 0xFFF < (loaded.setI 0xFFE).iReg.toNat + 3 - 1) ∧
    ((Instr.storeRegs 0xF = .storeRegs 0xF ∧ 16 = (0xF : Nibble).toNat + 1 ∧ Access.write = .write) ∧ 0 < 16 ∧
      0xFFF < (loaded.setI 0xFF1).iReg.toNat + 16 - 1) ∧
    ((Instr.loadRegs 0 = .loadRegs 0 ∧ 1 = (0x0 : Nibble).toNat + 1 ∧ Access.read = .read) ∧ 0 < 1 ∧
      0xFFF < (loaded.setI 0x1000).iReg.toNat + 1 - 1) ∧
    ((Instr.drw 0 1 2 = .drw 0 1 2 ∧ 2 = 2 ∧ Access.read = .read) ∧ 0 < 2 ∧
      0xFFF < (loaded.setI 0xFFF).iReg.toNat + 2 - 1) := by decide

theorem witness_StoreThenLoadRestoresTheRegisters :
    (loaded.setI 0xFF0).iReg.toNat + (0xF : Nibble).toNat ≤ 0xFFF := by decide

theorem witness_ReadReturnsTheLastWrite : (0xFFE : Nat) ≠ 0xFFF := by decide

/-- Not storing is shown by another next instruction. -/
theorem not_storesTo {s : State} {i : Instr} (a : Nat) (h : s.nextInstr = some i) (h1 : ∀ x, i ≠ .ldB x)
    (h2 : ∀ x, i ≠ .storeRegs x) : ¬ s.storesTo a := by
  rintro ⟨x, ⟨hx, -⟩ | ⟨hx, -⟩⟩ <;> rw [h, Option.some.injEq] at hx
  · exact h1 x hx
  · exact h2 x hx

/-- FX55 with X = 0 over the low byte of the next word, and the state it leaves. -/
def selfModifying : State := (loaded.setI 0x203).withFetchWord 16 0xF055

/-- FX55 stores the low byte of the next word, which is fetched at once. -/
theorem witness_StoredCodeIsFetchedNext_at_once :
    selfModifying.status = .run ∧ selfModifying.nextInstr = some (.storeRegs 0) ∧
      selfModifying.iReg.toNat + (selfModifying.firstRegs ((0x0 : Nibble).toNat + 1)).length ≤ 0x1000 ∧
      (selfModifying.firstRegs ((0x0 : Nibble).toNat + 1))[0]? = some 0x00 ∧
      ∃ t, step selfModifying = .next t ∧
        (RunsWithoutStoreTo 0x203 0 t t ∧ t.pc.toNat ≤ 0xFFE ∧ t.pc.toNat + 1 = selfModifying.iReg.toNat + 0) :=
  ⟨by decide, by decide, by decide, by decide, by
    obtain ⟨t, ht, hp⟩ := exists_next (r := step selfModifying) (P := fun t => t.pc = 0x202) (by decide)
    exact ⟨t, ht, rfl, by rw [hp]; decide, by rw [hp]; decide⟩⟩

/-- FX33 stores the three last bytes of memory; a later state is fetched from them after one step that stores nothing: at
0x202 stands 1FFE, a jump to 0xFFE. -/
def laterFetch : State :=
  (withByte 0x203 0xFE (withByte 0x202 0x1F ((loaded.setI 0xFFD).setReg 5 254))).withFetchWord 16 0xF533

theorem witness_StoredCodeIsFetchedNext_later :
    laterFetch.status = .run ∧ laterFetch.nextInstr = some (.ldB 5) ∧
      laterFetch.iReg.toNat + (bcdDigits (laterFetch.reg 5)).length ≤ 0x1000 ∧
      (bcdDigits (laterFetch.reg 5))[1]? = some 5 ∧
      ∃ t, step laterFetch = .next t ∧ ∃ u, RunsWithoutStoreTo 0xFFE 1 t u ∧ u.pc.toNat ≤ 0xFFE ∧
        u.pc.toNat = laterFetch.iReg.toNat + 1 :=
  ⟨by decide, by decide, by decide, by decide, by
    obtain ⟨t, ht, hn, h⟩ := exists_next (r := step laterFetch)
      (P := fun t => t.nextInstr = some (.jp 0xFFE) ∧ (nextOf (step t)).any (fun u => decide (u.pc = 0xFFE)) = true) (by decide)
    obtain ⟨u, hu, hp⟩ := exists_next (P := fun u => u.pc = 0xFFE) h
    exact ⟨t, ht, u, ⟨not_storesTo _ hn nofun nofun, u, hu, rfl⟩, by rw [hp]; decide, by rw [hp]; decide⟩⟩

/-! Witnesses: display, keys. -/

/-- No rows at the last value of I, and fifteen rows that end at 0xFFF. -/
theorem witness_DrawXorsTheSpriteAndDetectsCollision :
    (0 ≤ 15 ∧ (0 = 0 ∨ (loaded.setI 0x1000).iReg.toNat + 0 - 1 ≤ 0xFFF)) ∧
      (15 ≤ 15 ∧ (15 = 0 ∨ (loaded.setI 0xFF1).iReg.toNat + 15 - 1 ≤ 0xFFF)) := by decide

/-- Pixel (63, 0) lies under the sprite of vector S6, pixel (7, 0) does not. -/
theorem witness_DrawXorsTheSprite_pixels :
    ((withByte 0x300 0xFF (loaded.setI 0x300)).setReg 0 63).spriteAt 0 1 1 63 0 ∧
      ¬ ((withByte 0x300 0xFF (loaded.setI 0x300)).setReg 0 63).spriteAt 0 1 1 7 0 := by
  refine ⟨⟨0, 0, by decide⟩, ?_⟩
  rintro ⟨r, b, -, hb, -, hx, -⟩
  change 7 = (63 + b) % 64 at hx
  omega

theorem witness_DrawingTwiceRestoresTheDisplay :
    (0xE : Nibble) ≠ 0xF ∧ (0x0 : Nibble) ≠ 0xF ∧ 15 ≤ 15 ∧
      (15 = 0 ∨ (loaded.setI 0xFF1).iReg.toNat + 15 - 1 ≤ 0xFFF) := by decide

/-- No key; the highest key code alone; the lowest of all. -/
theorem witness_KeyWaitTakesTheLowestKey :
    loaded.keys = 0 ∧
    (15 < 16 ∧ (withInputs 0x8000 0 loaded).keys.getLsbD 15 = true ∧
      ∀ j, j < 15 → (withInputs 0x8000 0 loaded).keys.getLsbD j = false) ∧
    (0 < 16 ∧ (withInputs 0xFFFF 0 loaded).keys.getLsbD 0 = true ∧
      ∀ j, j < 0 → (withInputs 0xFFFF 0 loaded).keys.getLsbD j = false) := by decide

/-! Witnesses: frames. -/

theorem witness_FrameOfRegisterInstructions :
    Instr.ldVxK 0xF ∈ [.ldImm 0xF 1, .addImm 0xF 1, .rnd 0xF 1, .ldReg 0xF 0, .orReg 0xF 0, .andReg 0xF 0, .ldVxDt 0xF,
      .ldVxK 0xF] ∧
      ∃ t, exec (.ldVxK 0xF) (withInputs 0x8000 0 loaded) = .next t ∧ t.reg 0xF = 0xF :=
  ⟨by decide, exists_next (by decide)⟩

theorem witness_FrameOfFlagInstructions :
    Instr.sub 0 1 ∈ [.addReg 0 1, .sub 0 1, .shr 0 1, .subn 0 1, .shl 0 1] ∧
      ∃ t, exec (.sub 0 1) ((loaded.setReg 0 5).setReg 1 3) = .next t ∧ t.reg 0xF = 1 :=
  ⟨by decide, exists_next (by decide)⟩

theorem witness_FrameOfControlTransfers :
    (Instr.skp 1 ∈ [.jp 0x300, .jpV0 0x300, .seImm 1 0, .sneImm 1 0, .seReg 1 2, .sneReg 1 2, .skp 1, .sknp 1] ∧
      ∃ t, exec (.skp 1) (loaded.setReg 1 0xF) = .next t ∧ t.status = (loaded.setReg 1 0xF).status) ∧
    (Instr.call 0x300 ∈ [.ret, .call 0x300] ∧
      ∃ t, exec (.call 0x300) (withStack 15 0x204 loaded) = .next t ∧ t.status = (withStack 15 0x204 loaded).status) ∧
    ∃ t, exec .ret (withStack 1 0x204 loaded) = .next t ∧ t.status = (withStack 1 0x204 loaded).status :=
  ⟨⟨by decide, exists_next (by decide)⟩, ⟨by decide, exists_next (by decide)⟩, exists_next (by decide)⟩

theorem witness_FrameOfIndexAndTimerWrites :
    (Instr.addI 1 ∈ [.ldI 0x300, .addI 1, .ldF 1] ∧
      ∃ t, exec (.addI 1) ((loaded.setI 0xFFF).setReg 1 1) = .next t ∧ t.iReg = 0) ∧
    (∃ t, exec (.ldDtVx 1) (loaded.setReg 1 1) = .next t ∧ t.dt = 1) ∧
    ∃ t, exec (.ldStVx 1) (loaded.setReg 1 1) = .next t ∧ t.st = 1 :=
  ⟨⟨by decide, exists_next (by decide)⟩, exists_next (by decide), exists_next (by decide)⟩

theorem witness_FrameOfStores :
    (∃ t, exec (.ldB 1) (loaded.setI 0xFFD) = .next t ∧ t.status = (loaded.setI 0xFFD).status) ∧
      ∃ t, exec (.storeRegs 0xF) (loaded.setI 0xFF0) = .next t ∧ t.status = (loaded.setI 0xFF0).status :=
  ⟨exists_next (by decide), exists_next (by decide)⟩

theorem witness_FrameOfBlockLoadAndDisplay :
    (∃ t, exec (.loadRegs 0) (loaded.setI 0xFFF) = .next t ∧ t.status = (loaded.setI 0xFFF).status) ∧
      (∃ t, exec .cls loaded = .next t ∧ t.status = loaded.status) ∧
      ∃ t, exec (.drw 0 1 1) (loaded.setI 0xFFF) = .next t ∧ t.status = (loaded.setI 0xFFF).status :=
  ⟨exists_next (by decide), exists_next (by decide), exists_next (by decide)⟩

/-! Witnesses: host interface. -/

theorem witness_InitSetsTheResetValues :
    (fullState.init = State.reset ∨ fullState.init = fullState.init) ∧ 79 < 80 ∧ (0x04F < 0x050 ∨ 0x0A0 ≤ 0x04F) ∧
      (0x0A0 < 0x050 ∨ 0x0A0 ≤ 0x0A0) := ⟨.inr rfl, by decide⟩

theorem witness_LoadProgramPlacesTheBytes :
    (State.reset.status = .init ∧ (List.replicate 3584 (0 : Byte)).length ≤ 3584) ∧
      3584 < (List.replicate 3585 (0 : Byte)).length ∧ loaded.status ≠ .init ∧
      [(0x12 : Byte), 0x00][1]? = some 0x00 :=
  ⟨⟨rfl, List.length_replicate.le⟩, List.length_replicate.symm ▸ Nat.lt_succ_self 3584, nofun, rfl⟩

theorem witness_JumpToItselfOnlyTicks :
    (loaded.withFetchWord 16 0x1200).status = .run ∧
      (loaded.withFetchWord 16 0x1200).nextInstr = some (.jp 0x200) ∧
      (0x200 : Addr).toNat = (loaded.withFetchWord 16 0x1200).pc.toNat ∧
      (loaded.withFetchWord 16 0x1200).dt = 0 ∧ (loaded.withFetchWord 16 0x1200).st = 0 := by decide

end Sys2Proof.Tests
end

section
/-! Scope: totality of the running step (R5, R72, R118), the FX55 block store (R102), and the frame of every instruction
(R12). A frame is proved in two parts: the form of the state the instructions answer, and the parts that form keeps. -/

namespace Sys2Proof.Machine

/-! What a result of an execute phase says about its state. -/

/-- Two next states of one execute are the same state. -/
theorem exec_next_unique {i : Instr} {s t u : State} (hu : exec i s = .next u) (ht : exec i s = .next t) : t = u := by
  rw [hu, Host.Outcome.next.injEq] at ht
  exact ht.symm

/-- Raising a fatal error leaves the status alone only where the machine is halted with that error already, and then it
changes nothing. -/
theorem State.eq_of_raise {s t : State} {e : Fault} (h : s.raise e = .next t) (ht : t.status = s.status) : t = s := by
  rw [State.raise_eq, Host.Outcome.next.injEq] at h
  exact State.eq_of_halted h ht

/-- A range that passes 0xFFF halts the machine (R97). -/
theorem State.withRange_of_out {s : State} {count : Nat} (access : Access) (k : Result) (hc : 0 < count)
    (h : 0x1000 < s.iReg.toNat + count) :
    s.withRange count access k =
      .next { s with status := .halted (.addressOutOfBounds (max s.iReg.toNat 0x1000) access s.pc) } := by
  rw [State.withRange_eq, if_neg (by omega)]

/-- A checked access that leaves the status alone either ran its body or changed nothing. -/
theorem State.withRange_cases {s t : State} {count : Nat} {access : Access} {k : Result}
    (h : s.withRange count access k = .next t) (ht : t.status = s.status) : k = .next t ∨ t = s := by
  unfold State.withRange at h
  split at h
  · exact .inl h
  · exact .inr (State.eq_of_raise h ht)

/-- A key operand that leaves the status alone either was a key code or changed nothing. -/
theorem State.withKey_cases {s t : State} {b : Byte} {k : Bool → Result}
    (h : s.withKey b k = .next t) (ht : t.status = s.status) : (∃ pressed, k pressed = .next t) ∨ t = s := by
  unfold State.withKey at h
  split at h
  · exact .inl ⟨_, h⟩
  · exact .inr (State.eq_of_raise h ht)

/-! Frames of the updates: an update of a listed part keeps all the others. -/

section Updates
variable {parts : List Part} {s t : State}

theorem KeepsBut.thenSetReg (h : KeepsBut parts s t) (hp : .regs ∈ parts) (x : Nibble) (b : Byte) :
    KeepsBut parts s (t.setReg x b) :=
  { h with regs := fun hn => absurd hp hn }

theorem KeepsBut.thenSetI (h : KeepsBut parts s t) (hp : .index ∈ parts) (w : Word) : KeepsBut parts s (t.setI w) :=
  { h with index := fun hn => absurd hp hn }

theorem KeepsBut.thenSetPc (h : KeepsBut parts s t) (hp : .pc ∈ parts) (w : Word) : KeepsBut parts s (t.setPc w) :=
  { h with pc := fun hn => absurd hp hn }

theorem KeepsBut.thenAdvance (h : KeepsBut parts s t) (hp : .pc ∈ parts) : KeepsBut parts s t.advance :=
  h.thenSetPc hp _

theorem KeepsBut.thenSetMem (h : KeepsBut parts s t) (hp : .memory ∈ parts) (m : Memory) :
    KeepsBut parts s (t.setMem m) :=
  { h with memory := fun hn => absurd hp hn }

theorem KeepsBut.thenSetStack (h : KeepsBut parts s t) (hp : .stack ∈ parts) (p : Fin 17) (k : Vector Addr 16) :
    KeepsBut parts s { t with sp := p, stack := k } :=
  { h with stack := fun hn => absurd hp hn }

theorem KeepsBut.thenSetDelay (h : KeepsBut parts s t) (hp : .delay ∈ parts) (b : Byte) :
    KeepsBut parts s { t with dt := b } :=
  { h with delay := fun hn => absurd hp hn }

theorem KeepsBut.thenSetSound (h : KeepsBut parts s t) (hp : .sound ∈ parts) (b : Byte) :
    KeepsBut parts s { t with st := b } :=
  { h with sound := fun hn => absurd hp hn }

theorem KeepsBut.thenSetDisplay (h : KeepsBut parts s t) (hd : .display ∈ parts) (hr : .redraw ∈ parts) (d : Display)
    (r : Bool) : KeepsBut parts s { t with disp := d, redraw := r } :=
  { h with display := fun hn => absurd hd hn, redraw := fun hn => absurd hr hn }

theorem KeepsBut.thenSetRegsFrom (h : KeepsBut parts s t) (hp : .regs ∈ parts) (k : Nat) (bs : List Byte) :
    KeepsBut parts s (t.setRegsFrom k bs) := by
  induction bs generalizing t k with
  | nil => exact h
  | cons b bs ih => exact ih (h.thenSetReg hp _ b) (k + 1)

end Updates

/-! The step (R5, R118). -/

/-- The end of a step answers a next state for every next state. -/
theorem endStep_next (s : State) : ∃ t, endStep (.next s) = .next t := by
  simp only [endStep]
  split
  · exact ⟨_, rfl⟩
  · exact ⟨_, rfl⟩

/-- One instruction cycle always answers a next state, whichever of its phases raises a fatal error. -/
theorem cycle_next (s : State) : ∃ t, cycle s = .next t := by
  unfold cycle
  cases s.fetch with
  | error e => exact ⟨_, rfl⟩
  | ok op =>
    simp only [decodeBytes_bytes]
    cases decode op with
    | error r => exact ⟨_, rfl⟩
    | ok i =>
      obtain ⟨u, hu, -⟩ := exec_next i s
      simp only [hu]
      exact endStep_next u

/-- Settles O12: the cycle answers a next state, and the inversion of the step gives that state's status. -/
theorem runningStepAlwaysCompletes : Obligations.RunningStepAlwaysCompletes := by
  intro s hs
  obtain ⟨t, ht⟩ := cycle_next s
  have hstep : step s = .next t := by rw [step, hs, ht]
  refine ⟨t, hstep, ?_⟩
  obtain ⟨-, ⟨e, -, rfl⟩ | ⟨i, u, -, -, hu, rfl⟩⟩ := step_cases hstep
  · exact .inr ⟨e, rfl⟩
  · exact .inl (by rw [State.retire_status, hu])

/-! FX33 and FX55: block stores (R101, R102). -/

/-- The k-th byte FX55 stores is V[k]. -/
theorem State.getElem?_firstRegs (s : State) {n : Nat} {k : Nibble} (h : k.toNat < n) :
    (s.firstRegs n)[k.toNat]? = some (s.reg k) := by
  rw [List.getElem?_eq_getElem (by simpa using h), State.getElem_firstRegs, BitVec.ofNat_toNat, BitVec.setWidth_eq]

/-- A block store changes no byte outside its block (R52). -/
theorem Memory.read_writeBytes_outside (m : Memory) {base a : Nat} {bs : List Byte}
    (h : a < base ∨ base + bs.length ≤ a) : Memory.read (Memory.writeBytes m base bs) a = Memory.read m a := by
  rw [Memory.read_writeBytes]
  split
  · rw [List.getElem?_eq_none (by omega), Option.getD_none]
  · rfl

/-- The frame of a block store: the bytes of the block and pc. -/
theorem State.writeBytes_frame (s : State) (base : Nat) (bs : List Byte) :
    MemoryKeptOutside base bs.length s (s.setMem (s.mem.writeBytes base bs)).advance ∧
      KeepsBut [.memory, .pc] s (s.setMem (s.mem.writeBytes base bs)).advance :=
  ⟨fun _ ha => Memory.read_writeBytes_outside s.mem ha,
    ((KeepsBut.refl _ s).thenSetMem (by simp) _).thenAdvance (by simp)⟩

/-- Settles O41: in range, by the law of a read after a block write; out of range, by the bounds check. -/
theorem storeWritesTheRegisterBlock : Obligations.StoreWritesTheRegisterBlock := by
  intro x s
  constructor
  · intro h
    refine ⟨_, exec_storeRegs_ok h, rfl, fun k hk => ?_, rfl, rfl⟩
    have hget := State.getElem?_firstRegs s (Nat.lt_succ_of_le hk)
    simp [Memory.read_writeBytes, hget]
  · intro h
    exact ⟨_, State.withRange_of_out .write _ (Nat.succ_pos _) (by omega)⟩

/-- Settles O56: each of the two is a block store, or changed nothing. -/
theorem frameOfStores : Obligations.FrameOfStores := by
  intro x i s t ht h
  constructor
  · rintro rfl
    rcases State.withRange_cases h ht with h | rfl
    · cases h
      exact State.writeBytes_frame s _ (bcdDigits (s.reg x))
    · exact ⟨fun _ _ => rfl, KeepsBut.refl _ _⟩
  · rintro rfl
    rcases State.withRange_cases h ht with h | rfl
    · cases h
      simpa using State.writeBytes_frame s s.iReg.toNat (s.firstRegs (x.toNat + 1))
    · exact ⟨fun _ _ => rfl, KeepsBut.refl _ _⟩

/-! Instructions that write one register. -/

/-- FX0A writes V[X] and goes on, or, with no key pressed, changes nothing (R115). -/
theorem exec_ldVxK_form (x : Nibble) (s : State) :
    exec (.ldVxK x) s = .next s ∨ ∃ b, exec (.ldVxK x) s = .next (s.setReg x b).advance := by
  simp only [exec, execLdVxK]
  cases lowestKey s.keys with
  | none => exact .inl rfl
  | some k => exact .inr ⟨_, rfl⟩

/-- The instructions whose one result is V[X] write it and go on, or, for FX0A with no key pressed, change nothing. -/
theorem exec_register_form {x y : Nibble} {nn : Byte} {i : Instr} (s : State)
    (hi : i ∈ [.ldImm x nn, .addImm x nn, .rnd x nn, .ldReg x y, .orReg x y, .andReg x y, .ldVxDt x, .ldVxK x]) :
    exec i s = .next s ∨ ∃ b, exec i s = .next (s.setReg x b).advance := by
  simp only [List.mem_cons, List.not_mem_nil, or_false] at hi
  rcases hi with rfl | rfl | rfl | rfl | rfl | rfl | rfl | rfl
  on_goal 8 => exact exec_ldVxK_form x s
  all_goals exact .inr ⟨_, rfl⟩

/-- Settles O52: one register write and an advance, or nothing. -/
theorem frameOfRegisterInstructions : Obligations.FrameOfRegisterInstructions := by
  intro x y nn i s t hi h
  rcases exec_register_form s hi with hs | ⟨b, hb⟩
  · obtain rfl := exec_next_unique hs h
    exact ⟨fun _ _ => rfl, KeepsBut.refl _ _⟩
  · obtain rfl := exec_next_unique hb h
    exact ⟨fun r hr => State.reg_setReg_of_ne s b hr, KeepsBut.setReg_advance s x b⟩

/-! Instructions that write VF and one register. -/

/-- The ALU instructions with a flag write VF, then V[X], and go on (D2, log 5). -/
theorem exec_flag_form {x y : Nibble} {i : Instr} (s : State)
    (hi : i ∈ [.addReg x y, .sub x y, .shr x y, .subn x y, .shl x y]) :
    ∃ flag b, exec i s = .next ((s.setFlag flag).setReg x b).advance := by
  simp only [List.mem_cons, List.not_mem_nil, or_false] at hi
  rcases hi with rfl | rfl | rfl | rfl | rfl
  all_goals exact ⟨_, _, rfl⟩

/-- Settles O53: the flag write, then the write of V[X], whatever X is. -/
theorem frameOfFlagInstructions : Obligations.FrameOfFlagInstructions := by
  intro x y i s t hi h
  obtain ⟨flag, b, hb⟩ := exec_flag_form s hi
  obtain rfl := exec_next_unique hb h
  refine ⟨fun r hx hf => ?_, ?_⟩
  · calc (((s.setFlag flag).setReg x b).advance).reg r
      _ = (s.setFlag flag).reg r := State.reg_setReg_of_ne _ b hx
      _ = s.reg r := State.reg_setReg_of_ne s flag hf
  · exact (((KeepsBut.refl _ s).thenSetReg (by simp) vF flag).thenSetReg (by simp) x b).thenAdvance (by simp)

/-! Control transfers. -/

/-- A skip on a key operand that does not halt the machine sets pc. -/
theorem State.withKey_skipIf_form {s t : State} {b : Byte} (taken : Bool → Bool)
    (h : s.withKey b (fun pressed => .next (s.skipIf (taken pressed))) = .next t) (ht : t.status = s.status) :
    ∃ w, t = s.setPc w := by
  rcases State.withKey_cases h ht with ⟨pressed, h⟩ | rfl
  · cases h
    exact ⟨_, rfl⟩
  · exact ⟨t.pc, rfl⟩

/-- A jump or a skip that does not halt the machine sets pc. -/
theorem exec_jump_form {x y : Nibble} {nn : Byte} {nnn : Addr} {i : Instr} {s t : State}
    (hi : i ∈ [.jp nnn, .jpV0 nnn, .seImm x nn, .sneImm x nn, .seReg x y, .sneReg x y, .skp x, .sknp x])
    (h : exec i s = .next t) (ht : t.status = s.status) : ∃ w, t = s.setPc w := by
  simp only [List.mem_cons, List.not_mem_nil, or_false] at hi
  rcases hi with rfl | rfl | rfl | rfl | rfl | rfl | rfl | rfl
  on_goal 8 => exact State.withKey_skipIf_form not h ht
  on_goal 7 => exact State.withKey_skipIf_form id h ht
  all_goals exact ⟨_, exec_next_unique rfl h⟩

/-- The call and the return, where they do not halt the machine, set pc and SP, and no stack entry but Stack[SP]. -/
theorem exec_callRet_form {nnn : Addr} {i : Instr} {s t : State} (hi : i ∈ [.ret, .call nnn])
    (h : exec i s = .next t) (ht : t.status = s.status) :
    ∃ (p : Fin 17) (k : Vector Addr 16) (w : Word), t = { s with sp := p, stack := k }.setPc w ∧
      ∀ j, j ≠ s.sp.val → k[j]? = s.stack[j]? := by
  simp only [List.mem_cons, List.not_mem_nil, or_false] at hi
  rcases hi with rfl | rfl
  · simp only [exec, execRet] at h
    cases hp : s.pop with
    | none =>
      rw [hp] at h
      exact ⟨s.sp, s.stack, s.pc, State.eq_of_raise h ht, fun _ _ => rfl⟩
    | some popped =>
      obtain ⟨ret, u⟩ := popped
      obtain ⟨-, -, -, hu⟩ := State.pop_some hp
      rw [hp] at h
      cases h
      exact ⟨u.sp, s.stack, wordOfAddr ret + 2, congrArg (State.setPc · _) hu, fun _ _ => rfl⟩
  · simp only [exec, execCall] at h
    cases hp : s.push (s.pc.setWidth 12) with
    | none =>
      rw [hp] at h
      exact ⟨s.sp, s.stack, s.pc, State.eq_of_raise h ht, fun _ _ => rfl⟩
    | some u =>
      obtain ⟨-, -, hu, hk⟩ := State.push_some hp
      rw [hp] at h
      cases h
      exact ⟨u.sp, u.stack, wordOfAddr nnn, congrArg (State.setPc · _) hu, fun j hj => by rw [hk, if_neg hj]⟩

/-- Settles O54: a write of pc, with one of SP and Stack[SP] for the call and the return. -/
theorem frameOfControlTransfers : Obligations.FrameOfControlTransfers := by
  intro x y nn nnn i s t ht h
  constructor
  · intro hi
    obtain ⟨w, rfl⟩ := exec_jump_form hi h ht
    exact KeepsBut.setPc s w
  · intro hi
    obtain ⟨p, k, w, rfl, hk⟩ := exec_callRet_form hi h ht
    exact ⟨((KeepsBut.refl _ s).thenSetStack (by simp) p k).thenSetPc (by simp) w, hk⟩

/-! Writes of I and of the timers. -/

/-- ANNN, FX1E and FX29 set I and go on. -/
theorem exec_index_form {x : Nibble} {nnn : Addr} {i : Instr} (s : State) (hi : i ∈ [.ldI nnn, .addI x, .ldF x]) :
    ∃ w, exec i s = .next (s.setI w).advance := by
  simp only [List.mem_cons, List.not_mem_nil, or_false] at hi
  rcases hi with rfl | rfl | rfl
  all_goals exact ⟨_, rfl⟩

/-- Settles O55: one write of I, DT or ST, and an advance. -/
theorem frameOfIndexAndTimerWrites : Obligations.FrameOfIndexAndTimerWrites := by
  intro x nnn i s t h
  refine ⟨fun hi => ?_, ?_, ?_⟩
  · obtain ⟨w, hw⟩ := exec_index_form s hi
    obtain rfl := exec_next_unique hw h
    exact ((KeepsBut.refl _ s).thenSetI (by simp) w).thenAdvance (by simp)
  · rintro rfl
    cases h
    exact ((KeepsBut.refl _ s).thenSetDelay (by simp) _).thenAdvance (by simp)
  · rintro rfl
    cases h
    exact ((KeepsBut.refl _ s).thenSetSound (by simp) _).thenAdvance (by simp)

/-! The block load and the display. -/

/-- A block load into V0, V1, … changes no register past its last byte (R103). -/
theorem State.reg_setRegsFrom_of_le (s : State) {bs : List Byte} {r : Nibble} (h : bs.length ≤ r.toNat) :
    (s.setRegsFrom 0 bs).reg r = s.reg r := by
  have hr := r.isLt
  rw [State.reg_setRegsFrom s 0 bs r (by omega), if_pos (Nat.zero_le _), List.getElem?_eq_none (by omega),
    Option.getD_none]

/-- Settles O57: each of the three ran to its end, or changed nothing. -/
theorem frameOfBlockLoadAndDisplay : Obligations.FrameOfBlockLoadAndDisplay := by
  intro x y n i s t ht h
  refine ⟨?_, ?_, ?_⟩
  · rintro rfl
    rcases State.withRange_cases h ht with h | rfl
    · cases h
      refine ⟨fun r hr => State.reg_setRegsFrom_of_le s (by simpa using hr), ?_⟩
      exact (((KeepsBut.refl _ s).thenSetRegsFrom (by simp) 0 _).thenSetI (by simp) _).thenAdvance (by simp)
    · exact ⟨fun _ _ => rfl, KeepsBut.refl _ _⟩
  · rintro rfl
    cases h
    exact ((KeepsBut.refl _ s).thenSetDisplay (by simp) (by simp) _ _).thenAdvance (by simp)
  · rintro rfl
    rcases State.withRange_cases h ht with h | rfl
    · cases h
      refine ⟨fun r hr => State.reg_setReg_of_ne s _ hr, ?_⟩
      exact (((KeepsBut.refl _ s).thenSetReg (by simp) vF _).thenSetDisplay (by simp) (by simp) _ _).thenAdvance (by simp)
    · exact ⟨fun _ _ => rfl, KeepsBut.refl _ _⟩

end Sys2Proof.Machine
end

section
/-! Scope: the state and its parts (10_state.md, R17–R41). Which parts an instruction reaches is a table, its footprint; one
noninterference theorem says that execute neither reads nor writes a part outside it, and the rules of who reaches what are
read off that table. The invariant is kept part by part: an instruction leaves a part outside its footprint as it was, and
the few that reach it are looked at one by one. -/

namespace Sys2Proof

/-- The parts of the state that only some instructions reach, and the two inputs of a step. -/
inductive Region where
  | memory | index | stack | delay | sound | display | keys | random

/-- The parts of the state, the registers and pc aside, that execute of an instruction reads or writes
(R19, R27–R33, R41, R42). -/
def Instr.footprint : Instr → List Region
  | .cls => [.display]
  | .ret | .call _ => [.stack]
  | .rnd _ _ => [.random]
  | .drw _ _ _ => [.index, .memory, .display]
  | .skp _ | .sknp _ | .ldVxK _ => [.keys]
  | .ldVxDt _ | .ldDtVx _ => [.delay]
  | .ldStVx _ => [.sound]
  | .ldI _ | .addI _ | .ldF _ => [.index]
  | .ldB _ | .storeRegs _ | .loadRegs _ => [.index, .memory]
  | .jp _ | .jpV0 _ | .seImm _ _ | .sneImm _ _ | .seReg _ _ | .sneReg _ _ | .ldImm _ _ | .addImm _ _ | .ldReg _ _
  | .orReg _ _ | .andReg _ _ | .addReg _ _ | .sub _ _ | .shr _ _ | .subn _ _ | .shl _ _ => []

/-! Which instructions have a part in their footprint. -/

theorem Instr.memory_mem_footprint {i : Instr} : .memory ∈ i.footprint ↔
    (∃ x y n, i = .drw x y n) ∨ ∃ x, i = .ldB x ∨ i = .storeRegs x ∨ i = .loadRegs x := by
  cases i <;> simp [Instr.footprint]

theorem Instr.index_mem_footprint {i : Instr} : .index ∈ i.footprint ↔
    .memory ∈ i.footprint ∨ (∃ nnn, i = .ldI nnn) ∨ ∃ x, i = .addI x ∨ i = .ldF x := by
  cases i <;> simp [Instr.footprint]

theorem Instr.stack_mem_footprint {i : Instr} : .stack ∈ i.footprint ↔ i = .ret ∨ ∃ nnn, i = .call nnn := by
  cases i <;> simp [Instr.footprint]

theorem Instr.delay_mem_footprint {i : Instr} : .delay ∈ i.footprint ↔ ∃ x, i = .ldVxDt x ∨ i = .ldDtVx x := by
  cases i <;> simp [Instr.footprint]

theorem Instr.sound_mem_footprint {i : Instr} : .sound ∈ i.footprint ↔ ∃ x, i = .ldStVx x := by
  cases i <;> simp [Instr.footprint]

theorem Instr.display_mem_footprint {i : Instr} : .display ∈ i.footprint ↔ i = .cls ∨ ∃ x y n, i = .drw x y n := by
  cases i <;> simp [Instr.footprint]

theorem Instr.keys_mem_footprint {i : Instr} : .keys ∈ i.footprint ↔ ∃ x, i = .skp x ∨ i = .sknp x ∨ i = .ldVxK x := by
  cases i <;> simp [Instr.footprint]

theorem Instr.random_mem_footprint {i : Instr} : .random ∈ i.footprint ↔ ∃ x nn, i = .rnd x nn := by
  cases i <;> simp [Instr.footprint]

end Sys2Proof

namespace Sys2Proof.Machine

/-! Noninterference: a part outside the footprint can be overwritten before or after execute. -/

/-- A change of some parts of the state, each by a function of its contents; a part that is not given stays. -/
structure PartMap where
  memory : Memory → Memory := id
  index : Word → Word := id
  sp : Fin 17 → Fin 17 := id
  stack : Vector Addr 16 → Vector Addr 16 := id
  delay : Byte → Byte := id
  sound : Byte → Byte := id
  display : Display → Display := id
  redraw : Bool → Bool := id
  keys : BitVec 16 → BitVec 16 := id
  random : Byte → Byte := id

/-- The state with its parts changed. -/
def State.mapParts (g : PartMap) (s : State) : State :=
  { s with
    mem := g.memory s.mem, iReg := g.index s.iReg, sp := g.sp s.sp, stack := g.stack s.stack, dt := g.delay s.dt,
    st := g.sound s.st, disp := g.display s.disp, redraw := g.redraw s.redraw, keys := g.keys s.keys,
    rnd := g.random s.rnd }

/-- The change leaves a part as it is. -/
def PartMap.Fixes (g : PartMap) : Region → Prop
  | .memory => g.memory = id
  | .index => g.index = id
  | .stack => g.sp = id ∧ g.stack = id
  | .delay => g.delay = id
  | .sound => g.sound = id
  | .display => g.display = id ∧ g.redraw = id
  | .keys => g.keys = id
  | .random => g.random = id

section MapParts
variable {g : PartMap}

/-- Raising a fatal error reads pc only, which no change of the parts touches. -/
theorem State.raise_mapParts (s : State) (e : Fault) :
    (s.mapParts g).raise e = mapState (State.mapParts g) (s.raise e) := rfl

/-- A change that leaves I alone commutes with the bounds check of R97. -/
theorem State.withRange_mapParts (hg : g.Fixes .index) {s : State} {count : Nat} {access : Access} {k k' : Result}
    (hk : k' = mapState (State.mapParts g) k) :
    (s.mapParts g).withRange count access k' = mapState (State.mapParts g) (s.withRange count access k) := by
  have hi : (s.mapParts g).iReg = s.iReg := congrFun hg s.iReg
  have hr : (s.mapParts g).rangeOk count = s.rangeOk count := by simp only [State.rangeOk, hi]
  have hb : (s.mapParts g).firstBadAddr = s.firstBadAddr := by simp only [State.firstBadAddr, hi]
  simp only [State.withRange, hr, hb, hk, State.raise_mapParts, apply_ite (mapState (State.mapParts g))]
  rfl

/-- A change that leaves the key snapshot alone commutes with the check of the key operand of R111. -/
theorem State.withKey_mapParts (hg : g.Fixes .keys) {s : State} {b : Byte} {k k' : Bool → Result}
    (hk : ∀ pressed, k' pressed = mapState (State.mapParts g) (k pressed)) :
    (s.mapParts g).withKey b k' = mapState (State.mapParts g) (s.withKey b k) := by
  have hkeys : (s.mapParts g).keys = s.keys := congrFun hg s.keys
  simp only [State.withKey, hkeys, hk, State.raise_mapParts, apply_ite (mapState (State.mapParts g))]
  rfl

theorem execLdVxK_mapParts (hg : g.Fixes .keys) (x : Nibble) (s : State) :
    execLdVxK x (s.mapParts g) = mapState (State.mapParts g) (execLdVxK x s) := by
  have hk : (s.mapParts g).keys = s.keys := congrFun hg s.keys
  unfold execLdVxK
  rw [hk]
  cases lowestKey s.keys with
  | none => rfl
  | some k => rfl

/-- A change that leaves the stack and SP alone commutes with a push. -/
theorem State.push_mapParts (hg : g.Fixes .stack) (s : State) (ret : Addr) :
    (s.mapParts g).push ret = (s.push ret).map (State.mapParts g) := by
  obtain ⟨hp, hk⟩ := hg
  cases g
  cases hp
  cases hk
  unfold State.push
  rw [apply_dite (Option.map _)]
  rfl

/-- A change that leaves the stack and SP alone commutes with a pop. -/
theorem State.pop_mapParts (hg : g.Fixes .stack) (s : State) :
    (s.mapParts g).pop = s.pop.map (Prod.map id (State.mapParts g)) := by
  obtain ⟨hp, hk⟩ := hg
  cases g
  cases hp
  cases hk
  unfold State.pop
  rw [apply_dite (Option.map _)]
  rfl

theorem execCall_mapParts (hg : g.Fixes .stack) (nnn : Addr) (s : State) :
    execCall nnn (s.mapParts g) = mapState (State.mapParts g) (execCall nnn s) := by
  have hpc : (s.mapParts g).pc = s.pc := rfl
  unfold execCall
  rw [hpc, State.push_mapParts hg]
  cases s.push (s.pc.setWidth 12) with
  | none => rfl
  | some t => rfl

theorem execRet_mapParts (hg : g.Fixes .stack) (s : State) :
    execRet (s.mapParts g) = mapState (State.mapParts g) (execRet s) := by
  unfold execRet
  rw [State.pop_mapParts hg]
  cases s.pop with
  | none => rfl
  | some popped => rfl

/-- A change of other parts commutes with FX65's block load into the registers. -/
theorem State.setRegsFrom_mapParts (s : State) (k : Nat) (bs : List Byte) :
    (s.mapParts g).setRegsFrom k bs = (s.setRegsFrom k bs).mapParts g := by
  induction bs generalizing s k with
  | nil => rfl
  | cons b bs ih => exact ih (s.setReg (BitVec.ofNat 4 k) b) (k + 1)

end MapParts

/-- Noninterference: execute neither reads nor writes a part outside the instruction's footprint. -/
theorem ignores_mapParts {i : Instr} {g : PartMap} (hg : ∀ r ∈ i.footprint, g.Fixes r) :
    Ignores i (State.mapParts g) := by
  intro s
  cases i <;> simp only [Instr.footprint, List.forall_mem_cons] at hg
  case ret => exact execRet_mapParts hg.1 s
  case call nnn => exact execCall_mapParts hg.1 nnn s
  case ldVxK x => exact execLdVxK_mapParts hg.1 x s
  case skp x => exact State.withKey_mapParts hg.1 (k := fun pressed => .next (s.skipIf pressed)) fun _ => rfl
  case sknp x => exact State.withKey_mapParts hg.1 (k := fun pressed => .next (s.skipIf !pressed)) fun _ => rfl
  case ldB x | storeRegs x =>
    obtain ⟨hi, hm, -⟩ := hg
    refine State.withRange_mapParts hi ?_
    cases g; cases hi; cases hm
    rfl
  case loadRegs x =>
    obtain ⟨hi, hm, -⟩ := hg
    refine State.withRange_mapParts hi ?_
    cases g; cases hi; cases hm
    rw [State.setRegsFrom_mapParts]
    rfl
  case drw x y n =>
    obtain ⟨hi, hm, ⟨hd, hr⟩, -⟩ := hg
    refine State.withRange_mapParts hi ?_
    cases g; cases hi; cases hm; cases hd; cases hr
    rfl
  case cls =>
    obtain ⟨⟨hd, hr⟩, -⟩ := hg
    cases g; cases hd; cases hr
    rfl
  case rnd x nn | ldVxDt x | ldDtVx x | ldStVx x | ldI nnn | addI x | ldF x =>
    obtain ⟨h, -⟩ := hg
    cases g; cases h
    rfl
  all_goals rfl

/-- What can stand in a part. -/
abbrev Contents : Region → Type
  | .memory => Memory
  | .index => Word
  | .stack => Fin 17 × Vector Addr 16
  | .delay | .sound | .random => Byte
  | .display => Display × Bool
  | .keys => BitVec 16

/-- The change that overwrites one part. -/
def PartMap.overwrite : (r : Region) → Contents r → PartMap
  | .memory, m => { memory := fun _ => m }
  | .index, w => { index := fun _ => w }
  | .stack, (p, k) => { sp := fun _ => p, stack := fun _ => k }
  | .delay, b => { delay := fun _ => b }
  | .sound, b => { sound := fun _ => b }
  | .display, (d, r) => { display := fun _ => d, redraw := fun _ => r }
  | .keys, k => { keys := fun _ => k }
  | .random, b => { random := fun _ => b }

theorem PartMap.overwrite_fixes {r r' : Region} (c : Contents r) (h : r' ≠ r) : (PartMap.overwrite r c).Fixes r' := by
  cases r <;> cases r' <;> simp_all [PartMap.overwrite, PartMap.Fixes]

/-- A part outside the footprint can be overwritten before or after execute. -/
theorem ignores_overwrite {r : Region} {i : Instr} (h : r ∉ i.footprint) (c : Contents r) :
    Ignores i (State.mapParts (PartMap.overwrite r c)) :=
  ignores_mapParts fun _ hr => PartMap.overwrite_fixes c fun heq => h (heq ▸ hr)

/-- What an instruction ignores it leaves unchanged: a state that the overwriting does not change goes to one that it does
not change. -/
theorem Ignores.fixed {i : Instr} {f : State → State} {s t : State} (hi : Ignores i f) (hs : f s = s)
    (h : exec i s = .next t) : f t = t := by
  have hf := hi s
  rw [hs, h] at hf
  exact (Host.Outcome.next.inj hf).symm

section Kept
variable {i : Instr} {s t : State}

theorem exec_mem_kept (hr : .memory ∉ i.footprint) (h : exec i s = .next t) : t.mem = s.mem :=
  (congrArg State.mem ((ignores_overwrite hr s.mem).fixed rfl h)).symm

theorem exec_iReg_kept (hr : .index ∉ i.footprint) (h : exec i s = .next t) : t.iReg = s.iReg :=
  (congrArg State.iReg ((ignores_overwrite hr s.iReg).fixed rfl h)).symm

theorem exec_stack_kept (hr : .stack ∉ i.footprint) (h : exec i s = .next t) : t.stack = s.stack :=
  (congrArg State.stack ((ignores_overwrite hr (s.sp, s.stack)).fixed rfl h)).symm

theorem exec_redraw_kept (hr : .display ∉ i.footprint) (h : exec i s = .next t) : t.redraw = s.redraw :=
  (congrArg State.redraw ((ignores_overwrite hr (s.disp, s.redraw)).fixed rfl h)).symm

theorem exec_keys_kept (hr : .keys ∉ i.footprint) (h : exec i s = .next t) : t.keys = s.keys :=
  (congrArg State.keys ((ignores_overwrite hr s.keys).fixed rfl h)).symm

theorem exec_rnd_kept (hr : .random ∉ i.footprint) (h : exec i s = .next t) : t.rnd = s.rnd :=
  (congrArg State.rnd ((ignores_overwrite hr s.rnd).fixed rfl h)).symm

end Kept

/-! What an execute that leaves the machine running did. -/

/-- A checked access that leaves the machine running is in range and ran its body. -/
theorem State.withRange_run {s t : State} {count : Nat} {access : Access} {k : Result}
    (h : s.withRange count access k = .next t) (ht : t.status = .run) :
    (count = 0 ∨ s.iReg.toNat + count ≤ 0x1000) ∧ k = .next t := by
  rw [State.withRange_eq] at h
  split at h
  · next hc => exact ⟨hc, h⟩
  · cases h
    cases ht

/-- A skip on a key operand that leaves the machine running moves pc only, by 4 or by 2. -/
theorem State.withKey_skipIf_run {s t : State} {b : Byte} (taken : Bool → Bool)
    (h : s.withKey b (fun pressed => .next (s.skipIf (taken pressed))) = .next t) (ht : t.status = .run) :
    ∃ c, t = s.skipIf c := by
  rw [State.withKey_eq] at h
  split at h
  · cases h
    exact ⟨_, rfl⟩
  · cases h
    cases ht

/-- A call on a full stack (R25). -/
theorem exec_call_full {s : State} (nnn : Addr) (h : s.sp.val = 16) : HaltsWith (.call nnn) s (.stackOverflow s.pc) := by
  simp only [HaltsWith, exec, execCall, State.push_none.2 h, State.raise_eq]

/-- A return with an empty stack (R26). -/
theorem exec_ret_empty {s : State} (h : s.sp.val = 0) : HaltsWith .ret s (.stackUnderflow s.pc) := by
  simp only [HaltsWith, exec, execRet, State.pop_none.2 h, State.raise_eq]

/-- The top entry of a stack that is not empty. -/
theorem State.exists_top {s : State} (h : 0 < s.sp.val) : ∃ ret, s.stack[s.sp.val - 1]? = some ret := by
  have := s.sp.isLt
  exact ⟨_, Vector.getElem?_eq_getElem (by omega)⟩

theorem exec_call_run {nnn : Addr} {s t : State} (h : exec (.call nnn) s = .next t) (ht : t.status = .run) :
    ∃ hs : s.sp.val < 16, t = { s with
      stack := s.stack.set s.sp.val (s.pc.setWidth 12) hs, sp := ⟨s.sp.val + 1, Nat.succ_lt_succ hs⟩,
      pc := wordOfAddr nnn } := by
  by_cases hs : s.sp.val < 16
  · exact ⟨hs, exec_next_unique (exec_call_ok nnn hs) h⟩
  · have := s.sp.isLt
    obtain rfl := exec_next_unique (exec_call_full nnn (by omega)) h
    cases ht

theorem exec_ret_run {s t : State} (h : exec .ret s = .next t) (ht : t.status = .run) :
    ∃ (ret : Addr) (p : Fin 17), s.stack[s.sp.val - 1]? = some ret ∧ t = { s with sp := p, pc := wordOfAddr ret + 2 } := by
  rcases Nat.eq_zero_or_pos s.sp.val with hs | hs
  · obtain rfl := exec_next_unique (exec_ret_empty hs) h
    cases ht
  · obtain ⟨ret, hr⟩ := State.exists_top hs
    obtain ⟨p, -, hp⟩ := exec_ret_ok hs hr
    exact ⟨ret, p, hr, exec_next_unique hp h⟩

theorem exec_loadRegs_run {x : Nibble} {s t : State} (h : exec (.loadRegs x) s = .next t) (ht : t.status = .run) :
    s.iReg.toNat + x.toNat ≤ 0xFFF ∧ exec (.loadRegs x) s = .next { s with
      v := (s.setRegsFrom 0 (s.mem.readBytes s.iReg.toNat (x.toNat + 1))).v,
      iReg := s.iReg + x.setWidth 16 + 1, pc := s.pc + 2 } := by
  obtain ⟨hc, -⟩ := State.withRange_run h ht
  have hi : s.iReg.toNat + x.toNat ≤ 0xFFF := by omega
  exact ⟨hi, exec_loadRegs_ok hi⟩

/-! The pc update (R22). -/

/-- A return address plus 2 is not masked (R77). -/
theorem wordOfAddr_add_two_toNat (a : Addr) : (wordOfAddr a + 2).toNat = a.toNat + 2 := by
  have := a.isLt
  rw [BitVec.toNat_add, wordOfAddr_toNat]
  exact Nat.mod_eq_of_lt (by simp; omega)

/-- The target of BNNN is not masked (R84). -/
theorem wordOfAddr_add_byte_toNat (a : Addr) (b : Byte) :
    (wordOfAddr a + b.setWidth 16).toNat = a.toNat + b.toNat := by
  have := a.isLt
  have := b.isLt
  rw [BitVec.toNat_add, wordOfAddr_toNat, BitVec.toNat_setWidth]
  omega

theorem State.skipIf_pc_cases (s : State) (taken : Bool) :
    (s.skipIf taken).pc = s.pc + 4 ∨ (s.skipIf taken).pc = s.pc + 2 := by
  cases taken
  · exact .inr rfl
  · exact .inl rfl

/-- FX0A waits exactly while no key is pressed (R115). -/
theorem exec_ldVxK_pc {x : Nibble} {s t : State} (h : exec (.ldVxK x) s = .next t) :
    t.pc = if s.keys = 0 then s.pc else s.pc + 2 := by
  simp only [exec, execLdVxK] at h
  cases hk : lowestKey s.keys with
  | none =>
    rw [hk] at h
    cases h
    rw [if_pos (lowestKey_eq_none.1 hk)]
  | some k =>
    have hne : s.keys ≠ 0 := fun h0 => by simp [lowestKey_eq_none.2 h0] at hk
    rw [hk] at h
    cases h
    rw [if_neg hne]
    rfl

/-- Settles O18: one case per form of the update; an instruction that may halt did not. -/
theorem pcUpdateOfEveryInstruction : Obligations.PcUpdateOfEveryInstruction := by
  intro i s t _ h ht
  cases i
  case jp nnn =>
    cases h
    exact wordOfAddr_toNat nnn
  case call nnn =>
    obtain ⟨-, rfl⟩ := exec_call_run h ht
    exact wordOfAddr_toNat nnn
  case jpV0 nnn =>
    cases h
    exact wordOfAddr_add_byte_toNat nnn (s.reg 0)
  case ret =>
    obtain ⟨ret, p, hr, rfl⟩ := exec_ret_run h ht
    exact ⟨ret, hr, wordOfAddr_add_two_toNat ret⟩
  case seImm x nn | sneImm x nn | seReg x y | sneReg x y =>
    cases h
    exact State.skipIf_pc_cases s _
  case skp x =>
    obtain ⟨pressed, rfl⟩ := State.withKey_skipIf_run id h ht
    exact State.skipIf_pc_cases s pressed
  case sknp x =>
    obtain ⟨taken, rfl⟩ := State.withKey_skipIf_run not h ht
    exact State.skipIf_pc_cases s taken
  case ldVxK x => exact exec_ldVxK_pc h
  case drw x y n | ldB x | storeRegs x =>
    obtain ⟨-, h⟩ := State.withRange_run h ht
    cases h
    rfl
  case loadRegs x =>
    obtain rfl := exec_next_unique (exec_loadRegs_run h ht).2 h
    rfl
  all_goals
    cases h
    rfl

/-! The invariant, part by part (R20, R23, R25, R35, R41). -/

section Invariant
variable {i : Instr} {s t : State}

/-- Execute leaves memory alone or stores a block at I that ends within memory. -/
theorem exec_mem_cases (h : exec i s = .next t) (ht : t.status = .run) :
    t.mem = s.mem ∨ ∃ bs, s.iReg.toNat + bs.length ≤ 0x1000 ∧ t.mem = s.mem.writeBytes s.iReg.toNat bs := by
  by_cases hr : .memory ∈ i.footprint
  · obtain ⟨x, y, n, rfl⟩ | ⟨x, rfl | rfl | rfl⟩ := Instr.memory_mem_footprint.1 hr
    · obtain ⟨-, h⟩ := State.withRange_run h ht
      cases h
      exact .inl rfl
    · obtain ⟨hc, h⟩ := State.withRange_run h ht
      cases h
      exact .inr ⟨bcdDigits (s.reg x), by simpa [bcdDigits] using hc, rfl⟩
    · obtain ⟨hc, h⟩ := State.withRange_run h ht
      cases h
      exact .inr ⟨s.firstRegs (x.toNat + 1), by simpa using hc, rfl⟩
    · obtain rfl := exec_next_unique (exec_loadRegs_run h ht).2 h
      exact .inl rfl
  · exact .inl (exec_mem_kept hr h)

/-- Execute leaves I within 0x000–0x1000: DXYN, FX33 and FX55 only read it, FX65 ends at most one past memory, FX1E masks,
ANNN and FX29 are bounded by their operand. -/
theorem exec_iReg_le (hs : s.iReg.toNat ≤ 0x1000) (h : exec i s = .next t) (ht : t.status = .run) :
    t.iReg.toNat ≤ 0x1000 := by
  by_cases hr : .index ∈ i.footprint
  · obtain hm | ⟨nnn, rfl⟩ | ⟨x, rfl | rfl⟩ := Instr.index_mem_footprint.1 hr
    · obtain ⟨x, y, n, rfl⟩ | ⟨x, rfl | rfl | rfl⟩ := Instr.memory_mem_footprint.1 hm
      iterate 3
        obtain ⟨-, h⟩ := State.withRange_run h ht
        cases h
        exact hs
      · obtain ⟨hi, hload⟩ := exec_loadRegs_run h ht
        obtain rfl := exec_next_unique hload h
        show (s.iReg + x.setWidth 16 + 1).toNat ≤ 0x1000
        bv_omega
    · cases h
      have := nnn.isLt
      simp only [State.advance_iReg, State.setI_iReg, wordOfAddr_toNat]
      omega
    · cases h
      simp only [State.advance_iReg, State.setI_iReg, addToI, BitVec.toNat_ofNat]
      omega
    · cases h
      have := (s.reg x).isLt
      simp only [State.advance_iReg, State.setI_iReg, glyphAddr, Config.fontBase, BitVec.toNat_ofNat]
      exact (Nat.mod_le _ _).trans (by omega)
  · rwa [exec_iReg_kept hr h]

/-- A return address pushed from a fetchable pc is that pc (R79). -/
theorem setWidth_toNat_of_fetchable {pc : Word} (h : pc.toNat ≤ 0xFFE) : (pc.setWidth 12 : Addr).toNat = pc.toNat := by
  rw [BitVec.toNat_setWidth]
  omega

/-- Execute leaves every stack entry the address of an instruction. -/
theorem exec_stack_le (hpc : s.pc.toNat ≤ 0xFFE) (hs : ∀ (k : Nat) (hk : k < 16), (s.stack[k]).toNat ≤ 0xFFE)
    (h : exec i s = .next t) (ht : t.status = .run) (k : Nat) (hk : k < 16) : (t.stack[k]).toNat ≤ 0xFFE := by
  by_cases hr : .stack ∈ i.footprint
  · obtain rfl | ⟨nnn, rfl⟩ := Instr.stack_mem_footprint.1 hr
    · obtain ⟨ret, p, -, rfl⟩ := exec_ret_run h ht
      exact hs k hk
    · obtain ⟨hsp, rfl⟩ := exec_call_run h ht
      simp only [Vector.getElem_set]
      split
      · rwa [setWidth_toNat_of_fetchable hpc]
      · exact hs k hk
  · simp only [exec_stack_kept hr h]
    exact hs k hk

/-- Execute leaves pc within 0x000–0x10FE, the farthest target being that of BNNN. -/
theorem exec_pc_le (hrun : s.status = .run) (hpc : s.pc.toNat ≤ 0xFFE)
    (hs : ∀ (k : Nat) (hk : k < 16), (s.stack[k]).toNat ≤ 0xFFE) (h : exec i s = .next t) (ht : t.status = .run) :
    t.pc.toNat ≤ 0x10FE := by
  have two : (s.pc + 2).toNat ≤ 0x10FE := by bv_omega
  have four : (s.pc + 4).toNat ≤ 0x10FE := by bv_omega
  have hup := pcUpdateOfEveryInstruction i s t hrun h ht
  cases i
  case jp nnn | call nnn =>
    have := nnn.isLt
    simp only at hup
    omega
  case jpV0 nnn =>
    have := nnn.isLt
    have := (s.reg 0).isLt
    simp only at hup
    omega
  case ret =>
    obtain ⟨popped, hp, hup⟩ := hup
    obtain ⟨hk, rfl⟩ := Vector.getElem?_eq_some_iff.1 hp
    have := hs _ hk
    omega
  case seImm x nn | sneImm x nn | seReg x y | sneReg x y | skp x | sknp x =>
    rcases hup with hup | hup
    · exact hup ▸ four
    · exact hup ▸ two
  case ldVxK x =>
    change t.pc = if s.keys = 0 then s.pc else s.pc + 2 at hup
    split at hup
    · rw [hup]
      omega
    · exact hup ▸ two
  all_goals exact hup ▸ two

/-- Execute from a fetchable pc that leaves the machine running keeps the invariant. -/
theorem exec_inv (hs : Inv s) (hrun : s.status = .run) (hpc : s.pc.toNat ≤ 0xFFE) (h : exec i s = .next t)
    (ht : t.status = .run) : Inv t where
  memCanonical := by
    obtain hm | ⟨bs, -, hm⟩ := exec_mem_cases h ht
    · exact hm ▸ hs.memCanonical
    · exact hm ▸ Memory.wf_writeBytes _ bs hs.memCanonical
  memInRange c hc := by
    obtain hm | ⟨bs, hle, hm⟩ := exec_mem_cases h ht
    · exact hs.memInRange c (hm ▸ hc)
    · rcases Memory.mem_writeBytes (hm ▸ hc) with hin | hin
      · simp only [Config.memTop]
        omega
      · exact hs.memInRange c hin
  indexInRange := exec_iReg_le hs.indexInRange h ht
  pcInRange := exec_pc_le hrun hpc hs.stackInRange h ht
  stackInRange := exec_stack_le hpc hs.stackInRange h ht
  haltedByStep n := by simp [ht]

/-- The invariant does not speak of the timers and the inputs. -/
theorem Inv.retire (hs : Inv s) : Inv s.retire where
  memCanonical := by simpa using hs.memCanonical
  memInRange := by simpa using hs.memInRange
  indexInRange := by simpa using hs.indexInRange
  pcInRange := by simpa using hs.pcInRange
  stackInRange := by simpa using hs.stackInRange
  haltedByStep := by simpa using hs.haltedByStep

end Invariant

/-- Settles O15: a step that halts changes the status only, any other is an execute and a retirement. -/
theorem stepKeepsTheInvariant : Obligations.StepKeepsTheInvariant := by
  intro s t hs h
  obtain ⟨hrun, ⟨e, he, rfl⟩ | ⟨i, u, hi, hu, hur, rfl⟩⟩ := step_cases h
  · exact { hs with haltedByStep := fun n hn => he n (by simpa using hn) }
  · obtain ⟨hpc, -, -⟩ := State.nextInstr_some hi
    exact (exec_inv hs hrun hpc hu hur).retire

/-- Settles O16: memory lists nothing, and every bounded part holds its reset value. -/
theorem resetMeetsTheInvariant : Obligations.ResetMeetsTheInvariant where
  memCanonical := rfl
  memInRange := by simp [State.reset]
  indexInRange := by decide
  pcInRange := by decide
  stackInRange k hk := by simp [State.reset]
  haltedByStep n := by simp [State.reset]

/-! Who reaches what, read off the table. -/

/-- Settles O19: no other footprint holds the stack. -/
theorem stackReachedOnlyByCallAndReturn : Obligations.StackReachedOnlyByCallAndReturn := by
  intro i hcall hret p k
  have hr : .stack ∉ i.footprint := by simp [Instr.stack_mem_footprint, hcall, hret]
  exact ignores_overwrite hr (p, k)

/-- Settles O23: no other footprint holds the display. -/
theorem displayReachedOnlyByClearAndDraw : Obligations.DisplayReachedOnlyByClearAndDraw := by
  intro i hcls hdrw d r
  have hr : .display ∉ i.footprint := by simp [Instr.display_mem_footprint, hcls, hdrw]
  exact ignores_overwrite hr (d, r)

/-- Settles O25: no other footprint holds the timer. -/
theorem timersReachedOnlyByTheirInstructions : Obligations.TimersReachedOnlyByTheirInstructions := by
  intro i
  constructor
  · intro hi b
    have hr : .delay ∉ i.footprint := by simp [Instr.delay_mem_footprint, hi]
    exact ignores_overwrite hr b
  · intro hi b
    have hr : .sound ∉ i.footprint := by simp [Instr.sound_mem_footprint, hi]
    exact ignores_overwrite hr b

/-- Settles O26: no other footprint holds memory, or I. -/
theorem indexAndMemoryReachedOnlyByTheirInstructions : Obligations.IndexAndMemoryReachedOnlyByTheirInstructions := by
  intro i hmem hdrw
  have hm : .memory ∉ i.footprint := by simp [Instr.memory_mem_footprint, hmem, hdrw]
  refine ⟨fun m => ignores_overwrite hm m, fun hldI hadd w => ?_⟩
  have hr : .index ∉ i.footprint := by simp [Instr.index_mem_footprint, hm, hldI, hadd]
  exact ignores_overwrite hr w

/-- Execute halts the machine and changes nothing else, or leaves the status alone. -/
theorem exec_status_cases {i : Instr} {s t : State} (h : exec i s = .next t) :
    (∃ e, t = { s with status := .halted e }) ∨ t.status = s.status := by
  obtain ⟨u, hu, hc⟩ := exec_next i s
  obtain rfl := exec_next_unique hu h
  exact hc.imp_left fun ⟨e, _, he⟩ => ⟨e, he⟩

/-- No instruction changes the key snapshot, those that read it among them (R32). -/
theorem exec_keys {i : Instr} {s t : State} (h : exec i s = .next t) : t.keys = s.keys := by
  by_cases hr : .keys ∈ i.footprint
  · obtain ⟨e, rfl⟩ | hs := exec_status_cases h
    · rfl
    · obtain ⟨x, rfl | rfl | rfl⟩ := Instr.keys_mem_footprint.1 hr
      · obtain ⟨w, rfl⟩ := State.withKey_skipIf_form id h hs
        rfl
      · obtain ⟨w, rfl⟩ := State.withKey_skipIf_form not h hs
        rfl
      · exact (frameOfRegisterInstructions x 0 0 (.ldVxK x) s t (by simp) h).2.inputs.1
  · exact exec_keys_kept hr h

/-- No instruction changes the random byte, CXNN among them (R33). -/
theorem exec_rnd {i : Instr} {s t : State} (h : exec i s = .next t) : t.rnd = s.rnd := by
  by_cases hr : .random ∈ i.footprint
  · obtain ⟨x, nn, rfl⟩ := Instr.random_mem_footprint.1 hr
    cases h
    rfl
  · exact exec_rnd_kept hr h

/-- Settles O24: no other footprint holds the input, and those that hold it do not write it. -/
theorem inputsReadOnlyByTheirInstructions : Obligations.InputsReadOnlyByTheirInstructions := by
  intro i
  refine ⟨fun hi k => ?_, fun hi b => ?_, fun s t h => ⟨exec_keys h, exec_rnd h⟩⟩
  · have hr : .keys ∉ i.footprint := by simp [Instr.keys_mem_footprint, hi]
    exact ignores_overwrite hr k
  · have hr : .random ∉ i.footprint := by simp [Instr.random_mem_footprint, hi]
    exact ignores_overwrite hr b

/-! Who writes VF and redraw. -/

/-- The instructions whose one result is V[X] change VF only as their destination. -/
theorem exec_register_flag {x y : Nibble} {nn : Byte} {i : Instr} {s t : State}
    (hi : i ∈ [.ldImm x nn, .addImm x nn, .rnd x nn, .ldReg x y, .orReg x y, .andReg x y, .ldVxDt x, .ldVxK x])
    (h : exec i s = .next t) (hne : t.reg 0xF ≠ s.reg 0xF) : x = 0xF := by
  by_contra hx
  exact hne ((frameOfRegisterInstructions x y nn i s t hi h).1 0xF (Ne.symm hx))

/-- FX65 changes VF only when VF is the last register it loads. -/
theorem exec_loadRegs_flag {x : Nibble} {s t : State} (hs : t.status = s.status) (h : exec (.loadRegs x) s = .next t)
    (hne : t.reg 0xF ≠ s.reg 0xF) : x = 0xF := by
  by_contra hx
  have hlt : x.toNat < (0xF : Nibble).toNat := by
    have := x.isLt
    have : x.toNat ≠ 15 := fun h => hx (BitVec.eq_of_toNat_eq h)
    show x.toNat < 15
    omega
  exact hne ((frameOfBlockLoadAndDisplay x 0 0 _ s t hs h).1 rfl |>.1 0xF hlt)

/-- Settles O21: the writers are those listed, and every other instruction keeps all the registers. -/
theorem flagRegisterHasOnlyItsWriters : Obligations.FlagRegisterHasOnlyItsWriters := by
  intro i s t h hne
  obtain ⟨e, rfl⟩ | hs := exec_status_cases h
  · exact absurd rfl hne
  cases i
  case addReg x y | sub x y | shr x y | subn x y | shl x y => exact .inl ⟨x, y, by simp⟩
  case drw x y n => exact .inr (.inl ⟨x, y, n, rfl⟩)
  case ldImm x nn | addImm x nn | rnd x nn =>
    obtain rfl := exec_register_flag (x := x) (y := 0) (nn := nn) (by simp) h hne
    exact .inr (.inr (.inl ⟨nn, by simp⟩))
  case ldReg x y | orReg x y | andReg x y =>
    obtain rfl := exec_register_flag (x := x) (y := y) (nn := 0) (by simp) h hne
    exact .inr (.inr (.inr (.inl ⟨y, by simp⟩)))
  case ldVxDt x | ldVxK x =>
    obtain rfl := exec_register_flag (x := x) (y := 0) (nn := 0) (by simp) h hne
    simp
  case loadRegs x =>
    obtain rfl := exec_loadRegs_flag hs h hne
    simp
  case ret => exact absurd (((frameOfControlTransfers 0 0 0 0 _ s t hs h).2 (by simp)).1.regs (by simp) 0xF) hne
  case call nnn => exact absurd (((frameOfControlTransfers 0 0 0 nnn _ s t hs h).2 (by simp)).1.regs (by simp) 0xF) hne
  case skp x | sknp x =>
    exact absurd (((frameOfControlTransfers x 0 0 0 _ s t hs h).1 (by simp)).regs (by simp) 0xF) hne
  case ldB x => exact absurd (((frameOfStores x _ s t hs h).1 rfl).2.regs (by simp) 0xF) hne
  case storeRegs x => exact absurd (((frameOfStores x _ s t hs h).2 rfl).2.regs (by simp) 0xF) hne
  all_goals
    cases h
    exact absurd rfl hne

/-- 00E0 and DXYN raise redraw (R31, R104, R110). -/
theorem exec_redraw_raised {i : Instr} {s t : State} (hr : .display ∈ i.footprint) (h : exec i s = .next t)
    (ht : t.status = .run) : t.redraw = true := by
  obtain rfl | ⟨x, y, n, rfl⟩ := Instr.display_mem_footprint.1 hr
  · cases h
    rfl
  · obtain ⟨-, h⟩ := State.withRange_run h ht
    cases h
    rfl

/-- Settles O22: a step that halts keeps redraw; a completed one raises it when the display is in the instruction's footprint
and keeps it otherwise. -/
theorem redrawIsRaisedByDrawingOnly : Obligations.RedrawIsRaisedByDrawingOnly := by
  intro s t h
  obtain ⟨-, ⟨e, -, rfl⟩ | ⟨i, u, hi, hu, hur, rfl⟩⟩ := step_cases h
  · exact ⟨id, fun hoff hon => absurd (hoff.symm.trans hon) Bool.false_ne_true, nofun, rfl⟩
  · simp only [hi, Option.some.injEq, ← Instr.display_mem_footprint, State.retire_redraw]
    by_cases hr : .display ∈ i.footprint
    · have hon := exec_redraw_raised hr hu hur
      exact ⟨fun _ => hon, fun _ _ => hr, fun _ _ => hon, rfl⟩
    · have hkept := exec_redraw_kept hr hu
      refine ⟨fun hon => hkept.trans hon, fun hoff hon => ?_, fun _ hd => absurd hd hr, rfl⟩
      exact absurd (hoff.symm.trans (hkept.symm.trans hon)) Bool.false_ne_true

/-! Call and return. -/

/-- The return address pushed from a fetchable pc names it again (R79). -/
theorem wordOfAddr_setWidth {pc : Word} (h : pc.toNat ≤ 0xFFE) : wordOfAddr (pc.setWidth 12) = pc :=
  BitVec.eq_of_toNat_eq ((wordOfAddr_toNat _).trans (setWidth_toNat_of_fetchable h))

/-- Settles O28: with room, the equation of the call; on a full stack, the push that fails. -/
theorem callPushesItsOwnAddress : Obligations.CallPushesItsOwnAddress := by
  intro nnn s
  refine ⟨fun hs hpc => ?_, exec_call_full nnn⟩
  exact ⟨_, exec_call_ok nnn hs, wordOfAddr_toNat nnn, rfl, rfl, s.pc.setWidth 12, by simp,
    setWidth_toNat_of_fetchable hpc⟩

/-- Settles O29: with an entry, the equation of the return; on an empty stack, the pop that fails. -/
theorem returnGoesPastTheCall : Obligations.ReturnGoesPastTheCall := by
  intro s
  refine ⟨fun ret hs hr => ?_, exec_ret_empty⟩
  obtain ⟨p, hp, h⟩ := exec_ret_ok hs hr
  exact ⟨_, h, wordOfAddr_add_two_toNat ret, hp, rfl, rfl⟩

/-- Settles O30: the call leaves its own address on top, and the return takes it from there. -/
theorem callThenReturnResumesAfterTheCall : Obligations.CallThenReturnResumesAfterTheCall := by
  intro nnn s hs hpc
  have hcall := exec_call_ok nnn hs
  obtain ⟨p, hp, hret⟩ := exec_ret_ok (s := { s with
    stack := s.stack.set s.sp.val (s.pc.setWidth 12) hs, sp := ⟨s.sp.val + 1, Nat.succ_lt_succ hs⟩,
    pc := wordOfAddr nnn }) (ret := s.pc.setWidth 12) (Nat.succ_pos _) (by simp)
  refine ⟨_, _, hcall, hret, ?_, Fin.ext hp, fun k hk => ?_, fun r => rfl⟩
  · rw [wordOfAddr_setWidth hpc]
  · rw [Vector.getElem?_set_ne _ (by omega)]

/-! The host's view of a step, and the state after `init()`. -/

/-- Settles O10: what a step returns is read off the status it ends in. -/
theorem hostStepReturnsOkOrError : Obligations.HostStepReturnsOkOrError := by
  intro s t keys rnd h
  have hstep : s.hostStep keys rnd = some ⟨t, t.stepReturn⟩ := by rw [State.hostStep, h]
  constructor
  · intro hrun
    rw [hstep, State.stepReturn, hrun]
  · intro e he
    rw [hstep, State.stepReturn, he]

/-- Memory at its reset contents holds the font (R39, R43). -/
theorem Memory.background_font {j : Nat} (hj : j < 80) : Memory.background (0x050 + j) = Config.font j := by
  rw [Memory.background, if_pos (by simp only [Config.fontBase, Config.fontSize]; omega), Config.fontBase, Nat.add_sub_cancel_left]

/-- Memory at its reset contents is 0 outside the font (R39). -/
theorem Memory.background_outside {a : Nat} (ha : a < 0x050 ∨ 0x0A0 ≤ a) : Memory.background a = 0 := by
  rw [Memory.background, if_neg]
  simp only [Config.fontBase, Config.fontSize]
  omega

/-- Settles O58: the reset state is what `init()` makes of it, and no part the statement names depends on the state before. -/
theorem initSetsTheResetValues : Obligations.InitSetsTheResetValues := by
  intro s t ht
  obtain ⟨u, rfl⟩ : ∃ u : State, t = u.init := ht.elim (fun h => ⟨State.reset, h⟩) fun h => ⟨s, h⟩
  refine ⟨fun r => ?_, rfl, rfl, rfl, fun k hk => ?_, rfl, rfl, Display.pixel_blank, rfl, rfl,
    fun j hj => Memory.background_font hj, fun a ha => Memory.background_outside ha⟩
  · simp [State.reg, State.init, State.reset]
  · simp [State.init, State.reset, hk]

end Sys2Proof.Machine
end

section
/-! Scope: memory and the fetch from it (R41–R58, R62). One theorem says what a step does to a byte of memory: it keeps it, or
the step is an FX33 or FX55 whose block holds that address. Who writes memory is read off it, and so is, by induction over a
run, that a stored byte stays until it is stored to again; the fetch of that byte is the rule of the two bytes at pc. -/

namespace Sys2Proof.Machine

/-! Fetch (R47, R49, R62). -/

theorem State.fetch_of_le {s : State} (h : s.pc.toNat ≤ 0xFFE) : s.fetch = .ok s.fetchWord := by
  rw [State.fetch_eq, if_pos h]

@[simp] theorem State.firstByte_fetchWord (s : State) : firstByte s.fetchWord = s.mem.read s.pc.toNat :=
  firstByte_wordOfBytes _ _

@[simp] theorem State.secondByte_fetchWord (s : State) : secondByte s.fetchWord = s.mem.read (s.pc.toNat + 1) :=
  secondByte_wordOfBytes _ _

/-- Settles O6: fetch answers the word of the two bytes, whose value is the law of `wordOfBytes`. -/
theorem fetchIsBigEndian : Obligations.FetchIsBigEndian :=
  fun _ hpc => ⟨_, State.fetch_of_le hpc, wordOfBytes_toNat _ _⟩

/-- Settles O7: the fetch phase fails, and the cycle raises its error. -/
theorem fetchOutOfRangeHalts : Obligations.FetchOutOfRangeHalts := by
  intro s hrun hpc
  have hfetch : s.fetch = .error (.addressOutOfBounds s.pc.toNat .fetch s.pc) := by
    rw [State.fetch_eq, if_neg (Nat.not_le.2 hpc)]
  simp only [step, hrun, cycle, hfetch, State.raise_eq]

/-! Reads and writes of memory (R52). -/

/-- Settles O45: the law of a read after a write, at the address and away from it. -/
theorem readReturnsTheLastWrite : Obligations.ReadReturnsTheLastWrite :=
  fun m a _ v w => ⟨Memory.read_write_self m a v, Memory.read_write_of_ne m v, Memory.read_write_self _ a w⟩

/-- Each byte of a block store is read at its place in the block. -/
theorem Memory.read_writeBytes_of_getElem? (m : Memory) (base : Nat) {bs : List Byte} {k : Nat} {b : Byte}
    (h : bs[k]? = some b) : Memory.read (Memory.writeBytes m base bs) (base + k) = b := by
  rw [Memory.read_writeBytes, if_pos (Nat.le_add_right _ _), Nat.add_sub_cancel_left, h, Option.getD_some]

/-! The bytes a step changes (R58). -/

/-- A byte that changed lies in the block outside which memory was kept. -/
theorem MemoryKeptOutside.mem_block {base n a : Nat} {s t : State} (h : MemoryKeptOutside base n s t)
    (ha : t.mem.read a ≠ s.mem.read a) : base ≤ a ∧ a < base + n := by
  by_contra hout
  exact ha (h a (by omega))

/-- Execute changes a byte of memory only as an FX33 or FX55 over its address: the other instructions that reach memory
keep it by their frames, and the rest never reach it. -/
theorem State.storesTo_of_exec {s t : State} {i : Instr} {a : Nat} (hi : s.nextInstr = some i)
    (h : exec i s = .next t) (ht : t.status = s.status) (ha : t.mem.read a ≠ s.mem.read a) : s.storesTo a := by
  have hr : .memory ∈ i.footprint := by
    by_contra hr
    exact ha (by rw [exec_mem_kept hr h])
  obtain ⟨x, y, n, rfl⟩ | ⟨x, rfl | rfl | rfl⟩ := Instr.memory_mem_footprint.1 hr
  · obtain ⟨-, -, hframe⟩ := frameOfBlockLoadAndDisplay x y n _ s t ht h
    obtain ⟨-, hkeeps⟩ := hframe rfl
    exact absurd (hkeeps.memory (by decide) a) ha
  · obtain ⟨hframe, -⟩ := frameOfStores x _ s t ht h
    obtain ⟨hkept, -⟩ := hframe rfl
    exact ⟨x, .inl ⟨hi, hkept.mem_block ha⟩⟩
  · obtain ⟨-, hframe⟩ := frameOfStores x _ s t ht h
    obtain ⟨hkept, -⟩ := hframe rfl
    obtain ⟨hlo, hhi⟩ := hkept.mem_block ha
    exact ⟨x, .inr ⟨hi, hlo, Nat.le_of_lt_succ hhi⟩⟩
  · obtain ⟨hframe, -⟩ := frameOfBlockLoadAndDisplay x 0 0 _ s t ht h
    obtain ⟨-, hkeeps⟩ := hframe rfl
    exact absurd (hkeeps.memory (by decide) a) ha

/-- A step changes a byte of memory only by storing to its address. -/
theorem State.storesTo_of_step {s t : State} {a : Nat} (h : step s = .next t) (ha : t.mem.read a ≠ s.mem.read a) :
    s.storesTo a := by
  obtain ⟨hrun, ⟨e, -, rfl⟩ | ⟨i, u, hi, hu, hur, rfl⟩⟩ := step_cases h
  · exact absurd rfl ha
  · rw [State.retire_mem] at ha
    exact State.storesTo_of_exec hi hu (hur.trans hrun.symm) ha

/-- Settles O20: a step that changed a byte stored to its address, which only the two instructions do. -/
theorem memoryWrittenOnlyByBcdAndStore : Obligations.MemoryWrittenOnlyByBcdAndStore := by
  intro s t a h ha
  obtain ⟨x, ⟨hi, -⟩ | ⟨hi, -⟩⟩ := State.storesTo_of_step h ha
  · exact ⟨x, .inl hi⟩
  · exact ⟨x, .inr hi⟩

/-! Stored code (R56, R143). -/

/-- A byte stays what it is over a run that does not store to its address. -/
theorem RunsWithoutStoreTo.read_eq {a n : Nat} {s u : State} (h : RunsWithoutStoreTo a n s u) :
    u.mem.read a = s.mem.read a := by
  induction n generalizing s with
  | zero => rw [show u = s from h]
  | succ n ih =>
    obtain ⟨hno, t, hstep, hrest⟩ := h
    have hkept : t.mem.read a = s.mem.read a := by
      by_contra ha
      exact hno (State.storesTo_of_step hstep ha)
    exact (ih hrest).trans hkept

/-- A step in Run is execute of the instruction fetched, and the end of the step (R61). -/
theorem step_of_nextInstr {s : State} {i : Instr} (hrun : s.status = .run) (hi : s.nextInstr = some i) :
    step s = endStep (exec i s) := by
  obtain ⟨-, hfetch, hdecode⟩ := State.nextInstr_some hi
  simp only [step, hrun, cycle, hfetch, decodeBytes_bytes, hdecode]

/-- A step that runs FX33 or FX55 in range goes on running, with the bytes it stores at I. -/
theorem step_store {s : State} {x : Nibble} {stored : List Byte} (hrun : s.status = .run)
    (hi : (s.nextInstr = some (.ldB x) ∧ stored = bcdDigits (s.reg x)) ∨
      (s.nextInstr = some (.storeRegs x) ∧ stored = s.firstRegs (x.toNat + 1)))
    (hlen : s.iReg.toNat + stored.length ≤ 0x1000) :
    ∃ t, step s = .next t ∧ t.status = .run ∧ t.mem = s.mem.writeBytes s.iReg.toNat stored := by
  have hstep : step s = endStep (.next (s.setMem (s.mem.writeBytes s.iReg.toNat stored)).advance) := by
    obtain ⟨hi, rfl⟩ | ⟨hi, rfl⟩ := hi
    · have hin : s.iReg.toNat + 2 ≤ 0xFFF := by
        simp only [bcdDigits, List.length_cons, List.length_nil] at hlen
        omega
      rw [step_of_nextInstr hrun hi, exec_ldB_ok hin]
    · have hin : s.iReg.toNat + x.toNat ≤ 0xFFF := by
        rw [State.length_firstRegs] at hlen
        omega
      rw [step_of_nextInstr hrun hi, exec_storeRegs_ok hin]
  exact ⟨_, hstep.trans (endStep_of_run hrun), (State.retire_status _).trans hrun, State.retire_mem _⟩

/-- Settles O46: the step leaves the byte in memory, the run keeps it there, and fetch reads it at pc or at pc + 1. -/
theorem storedCodeIsFetchedNext : Obligations.StoredCodeIsFetchedNext := by
  intro s x stored hrun hi hlen
  obtain ⟨t, hstep, ht, hmem⟩ := step_store hrun hi hlen
  refine ⟨t, hstep, ht, fun k n b u hk hruns hpc => ?_⟩
  have hread : u.mem.read (s.iReg.toNat + k) = b := by
    rw [hruns.read_eq, hmem, Memory.read_writeBytes_of_getElem? s.mem _ hk]
  refine ⟨_, State.fetch_of_le hpc, fun hhigh => ?_, fun hlow => ?_⟩
  · rw [State.firstByte_fetchWord, hhigh, hread]
  · rw [State.secondByte_fetchWord, hlow, hread]

end Sys2Proof.Machine
end

section
/-! Scope: the encoding and the step around execute (30_encoding.md, R59–R75). Two facts carry the encoding: the decoder
undoes the encoder, and whatever the decoder answers is faithful to the word it read. The opcode map is then read off the
encoder: a word matches a row exactly when it encodes an instruction of that row. -/

namespace Sys2Proof

/-! A word made again from the fields the decoder selected it by (R59). -/

theorem encNNN_of_family {op : Word} {f : Nibble} (hf : opFamily op = f) : encNNN f (opNNN op) = op := by
  rw [← hf, encNNN_fields]

theorem encXNN_of_family {op : Word} {f : Nibble} (hf : opFamily op = f) : encXNN f (opX op) (opNN op) = op := by
  rw [← hf, encXNN_fields]

theorem encXYN_of_family {op : Word} {f : Nibble} (hf : opFamily op = f) :
    encXYN f (opX op) (opY op) (opN op) = op := by
  rw [← hf, encXYN_fields]

/-- The row count the decoder reads is a count that can be encoded, and is encoded as the field it came from (R105). -/
theorem wellFormed_drw_toNat (x y n : Nibble) : (Instr.drw x y n.toNat).wellFormed = true :=
  decide_eq_true (Nat.le_of_lt_succ n.isLt)

theorem encode_drw_toNat (x y n : Nibble) : encode (.drw x y n.toNat) = encXYN 0xD x y n := by
  rw [encode, BitVec.ofNat_toNat, BitVec.setWidth_eq]

/-! The decoder undoes the encoder. -/

/-- Decoding an encoded instruction gives it back: the fields of its word are its operands. -/
theorem decode_encode {i : Instr} (h : i.wellFormed = true) : decode (encode i) = .ok i := by
  cases i
  case drw x y n =>
    have hn : n < 2 ^ 4 := Nat.lt_succ_of_le (of_decide_eq_true h)
    simpa [encode, decode] using hn
  all_goals simp [encode, decode, decodeFamily0, decodeRegPair, decodeFamily8, decodeFamilyE, decodeFamilyF]

theorem decode_of_encode {op : Word} {i : Instr} (hw : i.wellFormed = true) (h : encode i = op) : decode op = .ok i :=
  h ▸ decode_encode hw

/-- Settles O1: the two bytes make up the encoded word, which decodes to the instruction. -/
theorem decodeOfEncodeIsIdentity : Obligations.DecodeOfEncodeIsIdentity :=
  fun i h => (decodeBytes_bytes (encode i)).trans (decode_encode h)

/-- Settles O4: each word is the encoding of its instruction. -/
theorem sampleWordsDecode : Obligations.SampleWordsDecode :=
  ⟨decode_of_encode rfl rfl, decode_of_encode rfl rfl, decode_of_encode rfl rfl, decode_of_encode rfl rfl,
    decode_of_encode rfl rfl, decode_of_encode rfl rfl, decode_of_encode rfl rfl⟩

/-! The decoder is faithful to the word it reads. -/

/-- An answer of the decoder that is right about the word `op`: a well-formed instruction that `op` encodes, or the refusal
that names `op`. -/
def FaithfulTo (op : Word) : Except DecodeReject Instr → Prop
  | .ok i => i.wellFormed = true ∧ encode i = op
  | .error e => e = .unsupportedInstruction op

theorem decodeFamily0_faithful {op : Word} (hf : opFamily op = 0x0) : FaithfulTo op (decodeFamily0 op) := by
  have hop := encNNN_of_family hf
  unfold decodeFamily0
  split
  · next h => exact ⟨rfl, by rwa [h] at hop⟩
  · next h => exact ⟨rfl, by rwa [h] at hop⟩
  · rfl

theorem decodeRegPair_faithful {op : Word} {f : Nibble} {i : Instr} (hf : opFamily op = f) (hw : i.wellFormed = true)
    (hi : encode i = encXYN f (opX op) (opY op) 0x0) : FaithfulTo op (decodeRegPair op i) := by
  have hop := encXYN_of_family hf
  unfold decodeRegPair
  split
  · next h => exact ⟨hw, hi.trans (by rwa [h] at hop)⟩
  · rfl

theorem decodeFamily8_faithful {op : Word} (hf : opFamily op = 0x8) : FaithfulTo op (decodeFamily8 op) := by
  have hop := encXYN_of_family hf
  unfold decodeFamily8
  split
  on_goal 9 => rfl
  all_goals next h => exact ⟨rfl, by rwa [h] at hop⟩

theorem decodeFamilyE_faithful {op : Word} (hf : opFamily op = 0xE) : FaithfulTo op (decodeFamilyE op) := by
  have hop := encXNN_of_family hf
  unfold decodeFamilyE
  split
  on_goal 3 => rfl
  all_goals next h => exact ⟨rfl, by rwa [h] at hop⟩

theorem decodeFamilyF_faithful {op : Word} (hf : opFamily op = 0xF) : FaithfulTo op (decodeFamilyF op) := by
  have hop := encXNN_of_family hf
  unfold decodeFamilyF
  split
  on_goal 10 => rfl
  all_goals next h => exact ⟨rfl, by rwa [h] at hop⟩

/-- Whatever the decoder answers is right about the word, family by family (R63). -/
theorem decode_faithful (op : Word) : FaithfulTo op (decode op) := by
  unfold decode
  split
  case h_1 hf => exact decodeFamily0_faithful hf
  case h_2 hf | h_3 hf | h_11 hf | h_12 hf => exact ⟨rfl, encNNN_of_family hf⟩
  case h_4 hf | h_5 hf | h_7 hf | h_8 hf | h_13 hf => exact ⟨rfl, encXNN_of_family hf⟩
  case h_6 hf | h_10 hf => exact decodeRegPair_faithful hf rfl rfl
  case h_9 hf => exact decodeFamily8_faithful hf
  case h_14 hf => exact ⟨wellFormed_drw_toNat _ _ _, (encode_drw_toNat _ _ _).trans (encXYN_of_family hf)⟩
  case h_15 hf => exact decodeFamilyE_faithful hf
  case h_16 =>
    have hf : opFamily op = 0xF := by
      simp only [imp_false] at *
      bv_omega
    exact decodeFamilyF_faithful hf

/-- Settles O2: the decoder's answer is right about the word. -/
theorem encodeOfDecodeIsIdentity : Obligations.EncodeOfDecodeIsIdentity := by
  intro op i h
  have hop := decode_faithful op
  rwa [h] at hop

/-- The decoder refuses a word by its own name only (R66). -/
theorem decode_error {op : Word} {e : DecodeReject} (h : decode op = .error e) : e = .unsupportedInstruction op := by
  have hop := decode_faithful op
  rwa [h] at hop

/-! The opcode map (R67). A word that agrees with a row in its fixed bits is the word of the row's fields and its own. -/

theorem encNNN_of_masked {op : Word} {f : Nibble} (h : op &&& 0xF000#16 = encNNN f 0) : encNNN f (opNNN op) = op := by
  rw [← encNNN_fields op, encNNN_and_family] at h
  exact encNNN_of_family (by simpa using congrArg opFamily h)

theorem encXNN_of_masked {op : Word} {f : Nibble} (h : op &&& 0xF000#16 = encXNN f 0 0) :
    encXNN f (opX op) (opNN op) = op := by
  rw [← encXNN_fields op, encXNN_and_family] at h
  exact encXNN_of_family (by simpa using congrArg opFamily h)

theorem encXYN_of_masked {op : Word} {f : Nibble} (h : op &&& 0xF000#16 = encXYN f 0 0 0) :
    encXYN f (opX op) (opY op) (opN op) = op := by
  rw [← encXYN_fields op, encXYN_and_family] at h
  exact encXYN_of_family (by simpa using congrArg opFamily h)

theorem encXYN_of_masked_last {op : Word} {f n : Nibble} (h : op &&& 0xF00F#16 = encXYN f 0 0 n) :
    encXYN f (opX op) (opY op) n = op := by
  rw [← encXYN_fields op, encXYN_and_last] at h
  have hn : opN op = n := by simpa using congrArg opN h
  rw [← hn]
  exact encXYN_of_family (by simpa using congrArg opFamily h)

theorem encXNN_of_masked_byte {op : Word} {f : Nibble} {nn : Byte} (h : op &&& 0xF0FF#16 = encXNN f 0 nn) :
    encXNN f (opX op) nn = op := by
  rw [← encXNN_fields op, encXNN_and_byte] at h
  have hnn : opNN op = nn := by simpa using congrArg opNN h
  rw [← hnn]
  exact encXNN_of_family (by simpa using congrArg opFamily h)

theorem eq_of_masked_allOnes {op w : Word} (h : op &&& 0xFFFF#16 = w) : w = op :=
  h.symm.trans BitVec.and_allOnes

/-- Every word of the row encodes an instruction of its mnemonic. -/
def OpcodeRow.Encoded (r : OpcodeRow) : Prop :=
  ∀ op, op &&& r.mask = r.bits → ∃ i : Instr, i.wellFormed = true ∧ i.mnemonic = r.mnemonic ∧ encode i = op

theorem opcodeRowsLow_encoded : ∀ r ∈ opcodeRowsLow, r.Encoded := by
  simp only [opcodeRowsLow, List.forall_mem_cons]
  refine ⟨fun op h => ⟨.cls, rfl, rfl, eq_of_masked_allOnes h⟩,
    fun op h => ⟨.ret, rfl, rfl, eq_of_masked_allOnes h⟩,
    fun op h => ⟨.jp (opNNN op), rfl, rfl, encNNN_of_masked h⟩,
    fun op h => ⟨.call (opNNN op), rfl, rfl, encNNN_of_masked h⟩,
    fun op h => ⟨.seImm (opX op) (opNN op), rfl, rfl, encXNN_of_masked h⟩,
    fun op h => ⟨.sneImm (opX op) (opNN op), rfl, rfl, encXNN_of_masked h⟩,
    fun op h => ⟨.seReg (opX op) (opY op), rfl, rfl, encXYN_of_masked_last h⟩,
    fun op h => ⟨.ldImm (opX op) (opNN op), rfl, rfl, encXNN_of_masked h⟩,
    fun op h => ⟨.addImm (opX op) (opNN op), rfl, rfl, encXNN_of_masked h⟩,
    fun op h => ⟨.ldReg (opX op) (opY op), rfl, rfl, encXYN_of_masked_last h⟩,
    fun op h => ⟨.orReg (opX op) (opY op), rfl, rfl, encXYN_of_masked_last h⟩,
    fun op h => ⟨.andReg (opX op) (opY op), rfl, rfl, encXYN_of_masked_last h⟩,
    fun op h => ⟨.addReg (opX op) (opY op), rfl, rfl, encXYN_of_masked_last h⟩,
    fun op h => ⟨.sub (opX op) (opY op), rfl, rfl, encXYN_of_masked_last h⟩,
    fun op h => ⟨.shr (opX op) (opY op), rfl, rfl, encXYN_of_masked_last h⟩,
    fun op h => ⟨.subn (opX op) (opY op), rfl, rfl, encXYN_of_masked_last h⟩,
    fun op h => ⟨.shl (opX op) (opY op), rfl, rfl, encXYN_of_masked_last h⟩,
    fun op h => ⟨.sneReg (opX op) (opY op), rfl, rfl, encXYN_of_masked_last h⟩, List.forall_mem_nil _⟩

theorem opcodeRowsHigh_encoded : ∀ r ∈ opcodeRowsHigh, r.Encoded := by
  simp only [opcodeRowsHigh, List.forall_mem_cons]
  refine ⟨fun op h => ⟨.ldI (opNNN op), rfl, rfl, encNNN_of_masked h⟩,
    fun op h => ⟨.jpV0 (opNNN op), rfl, rfl, encNNN_of_masked h⟩,
    fun op h => ⟨.rnd (opX op) (opNN op), rfl, rfl, encXNN_of_masked h⟩,
    fun op h => ⟨.drw (opX op) (opY op) (opN op).toNat, wellFormed_drw_toNat _ _ _, rfl,
      (encode_drw_toNat _ _ _).trans (encXYN_of_masked h)⟩,
    fun op h => ⟨.skp (opX op), rfl, rfl, encXNN_of_masked_byte h⟩,
    fun op h => ⟨.sknp (opX op), rfl, rfl, encXNN_of_masked_byte h⟩,
    fun op h => ⟨.ldVxDt (opX op), rfl, rfl, encXNN_of_masked_byte h⟩,
    fun op h => ⟨.ldVxK (opX op), rfl, rfl, encXNN_of_masked_byte h⟩,
    fun op h => ⟨.ldDtVx (opX op), rfl, rfl, encXNN_of_masked_byte h⟩,
    fun op h => ⟨.ldStVx (opX op), rfl, rfl, encXNN_of_masked_byte h⟩,
    fun op h => ⟨.addI (opX op), rfl, rfl, encXNN_of_masked_byte h⟩,
    fun op h => ⟨.ldF (opX op), rfl, rfl, encXNN_of_masked_byte h⟩,
    fun op h => ⟨.ldB (opX op), rfl, rfl, encXNN_of_masked_byte h⟩,
    fun op h => ⟨.storeRegs (opX op), rfl, rfl, encXNN_of_masked_byte h⟩,
    fun op h => ⟨.loadRegs (opX op), rfl, rfl, encXNN_of_masked_byte h⟩, List.forall_mem_nil _⟩

theorem opcodeRows_encoded : ∀ r ∈ opcodeRows, r.Encoded :=
  List.forall_mem_append.2 ⟨opcodeRowsLow_encoded, opcodeRowsHigh_encoded⟩

open Laws.FixedBits in
/-- Every instruction's encoding agrees with its row in the fixed bits. -/
theorem encode_fixedBits (i : Instr) : Statement i := by
  cases i
  exacts [cls, ret, jp _, call _, seImm _ _, sneImm _ _, seReg _ _, ldImm _ _, addImm _ _, ldReg _ _, orReg _ _,
    andReg _ _, addReg _ _, sub _ _, shr _ _, subn _ _, shl _ _, sneReg _ _, ldI _, jpV0 _, rnd _ _, drw _ _ _, skp _,
    sknp _, ldVxDt _, ldVxK _, ldDtVx _, ldStVx _, addI _, ldF _, ldB _, storeRegs _, loadRegs _]

/-- What decodes matches the row of its mnemonic. -/
theorem exists_row_of_decode {op : Word} {i : Instr} (h : decode op = .ok i) :
    ∃ r ∈ opcodeRows, r.mnemonic = i.mnemonic ∧ op &&& r.mask = r.bits := by
  obtain ⟨-, rfl⟩ := encodeOfDecodeIsIdentity op i h
  exact encode_fixedBits i

/-- A word that matches no row is refused. -/
theorem decode_unmatched {op : Word} (h : ∀ r ∈ opcodeRows, op &&& r.mask ≠ r.bits) :
    decode op = .error (.unsupportedInstruction op) := by
  cases hd : decode op with
  | error e => rw [decode_error hd]
  | ok i =>
    obtain ⟨r, hr, -, hm⟩ := exists_row_of_decode hd
    exact absurd hm (h r hr)

/-- Settles O3: what decodes is encoded with its row's fixed bits, a row's words are encodings, and the rest is refused. -/
theorem decodeFollowsTheOpcodeMap : Obligations.DecodeFollowsTheOpcodeMap := by
  refine fun op => ⟨fun i => exists_row_of_decode, fun r hr hm => ?_, decode_unmatched⟩
  obtain ⟨i, hw, hi, henc⟩ := opcodeRows_encoded r hr op hm
  exact ⟨i, decode_of_encode hw henc, hi⟩

end Sys2Proof

namespace Sys2Proof.Machine

/-! The step around execute (R61, R64, R65). -/

/-- Settles O8: the word at pc is refused by the decoder, and the cycle raises its error. -/
theorem unsupportedWordHalts : Obligations.UnsupportedWordHalts := by
  rintro s op hrun hpc rfl hno
  have hd : decode s.fetchWord = .error (.unsupportedInstruction s.fetchWord) := decode_unmatched hno
  simp only [step, hrun, cycle, State.fetch_of_le hpc, decodeBytes_bytes, hd, State.raise_eq]
  rfl

/-- The word at pc decodes to the next instruction. -/
theorem State.nextInstr_of_decode {s : State} {i : Instr} (hpc : s.pc.toNat ≤ 0xFFE)
    (hd : decode s.fetchWord = .ok i) : s.nextInstr = some i := by
  simp only [State.nextInstr, State.fetch_of_le hpc, hd, Except.toOption]

/-- Settles O5: the step is execute and its end, which retires a running state and leaves a halted one. -/
theorem stepRunsTheDecodedInstruction : Obligations.StepRunsTheDecodedInstruction := by
  intro s t i hrun hpc hd hexec
  have hstep : step s = endStep (.next t) := by
    rw [step_of_nextInstr hrun (State.nextInstr_of_decode hpc hd), hexec]
  exact ⟨fun ht => hstep.trans (endStep_of_run ht), fun e he => hstep.trans (endStep_of_halted he)⟩

/-- Settles O9: the status alone decides, and the inputs the host supplies do not change it. -/
theorem statusGatesTheStep : Obligations.StatusGatesTheStep := by
  intro s e keys rnd
  refine ⟨fun h => ?_, fun h => ?_, fun h => ⟨?_, ?_⟩⟩
  · rw [step, h]
  · rw [step, h]
  · rw [step, h]
  · have hstep : step (s.supply keys rnd) = .fault e := by rw [step, State.supply, h]
    rw [State.hostStep, hstep]

/-! The timers (R28, R29, R64). -/

theorem exec_dt_kept {i : Instr} {s t : State} (hi : ∀ x, i ≠ .ldDtVx x) (h : exec i s = .next t) : t.dt = s.dt := by
  by_cases hr : .delay ∈ i.footprint
  · obtain ⟨x, rfl | rfl⟩ := Instr.delay_mem_footprint.1 hr
    · cases h
      rfl
    · exact absurd rfl (hi x)
  · exact (congrArg State.dt ((ignores_overwrite hr s.dt).fixed rfl h)).symm

theorem exec_st_kept {i : Instr} {s t : State} (hi : ∀ x, i ≠ .ldStVx x) (h : exec i s = .next t) : t.st = s.st := by
  have hr : .sound ∉ i.footprint := by simp [Instr.sound_mem_footprint, hi]
  exact (congrArg State.st ((ignores_overwrite hr s.st).fixed rfl h)).symm

/-- Settles O14: a step that raised no fault retires the state execute left, with each timer counted down once. -/
theorem timersTickOncePerStep : Obligations.TimersTickOncePerStep := by
  intro s t h ht
  obtain ⟨-, ⟨e, -, rfl⟩ | ⟨i, u, hi, hu, -, rfl⟩⟩ := step_cases h
  · cases ht
  simp only [hi, Option.some.injEq, ne_eq, State.retire_dt, State.retire_st, countDown_toNat]
  refine ⟨?_, fun hx => by rw [exec_dt_kept hx hu], ?_, fun hx => by rw [exec_st_kept hx hu]⟩
  · rintro x rfl
    cases hu
    rfl
  · rintro x rfl
    cases hu
    rfl

/-! The shifts (R93, R95): each writes VF first, so with X = 0xF it is the flag that is shifted (D2, log 5). -/

theorem lowBitFlag_toNat (a : Byte) : (lowBitFlag a).toNat = a.toNat % 2 := by
  rw [lowBitFlag, BitVec.toNat_and]
  exact Nat.and_one_is_mod _

theorem highBitFlag_toNat (a : Byte) : (highBitFlag a).toNat = a.toNat / 0x80 := by
  rw [highBitFlag, BitVec.toNat_ushiftRight, Nat.shiftRight_eq_div_pow]

theorem byte_shr_toNat (a : Byte) : (a >>> 1).toNat = a.toNat / 2 := by
  rw [BitVec.toNat_ushiftRight, Nat.shiftRight_eq_div_pow]

theorem byte_shl_toNat (a : Byte) : (a <<< 1).toNat = a.toNat * 2 % 0x100 := by
  rw [BitVec.toNat_shiftLeft, Nat.shiftLeft_eq]

/-- An instruction that writes VF, then V[X] from V[X] by `g`, ends with both written, or, with X = 0xF, with `g` of the
flag. -/
theorem completes_of_flag_then_reg {i : Instr} {s : State} {x : Nibble} {flag : Byte} {g : Byte → Byte}
    (h : exec i s = .next ((s.setFlag flag).setReg x (g ((s.setFlag flag).reg x))).advance) :
    Completes i s fun t =>
      (x ≠ 0xF → t.reg x = g (s.reg x) ∧ t.reg 0xF = flag) ∧ (x = 0xF → t.reg 0xF = g flag) := by
  refine ⟨_, h, rfl, fun hx => ⟨?_, ?_⟩, ?_⟩
  · have hkept : (s.setFlag flag).reg x = s.reg x := State.reg_setReg_of_ne s flag hx
    rw [State.reg_advance, State.reg_setReg_self, hkept]
  · rw [State.reg_advance, State.reg_setReg_of_ne _ _ hx.symm]
    exact State.reg_setReg_self s vF flag
  · rintro rfl
    rw [State.reg_advance, State.reg_setReg_self]
    exact congrArg g (State.reg_setReg_self s vF flag)

/-- Settles O38: each shift writes the bit it shifts out, then the shifted register; neither meaning names Y. -/
theorem shiftsMoveTheLostBitIntoTheFlag : Obligations.ShiftsMoveTheLostBitIntoTheFlag := by
  intro x y s
  refine ⟨?_, ?_, fun y' => ⟨rfl, rfl⟩⟩
  · obtain ⟨t, ht, hpc, hne, hF⟩ := completes_of_flag_then_reg (i := .shr x y) (s := s) (g := (· >>> 1)) rfl
    refine ⟨t, ht, hpc, fun hx => ?_, fun hx => BitVec.eq_of_toNat_eq ?_⟩
    · obtain ⟨hreg, hflag⟩ := hne hx
      exact ⟨hreg ▸ byte_shr_toNat _, hflag ▸ lowBitFlag_toNat _⟩
    · rw [hF hx, byte_shr_toNat, lowBitFlag_toNat]
      exact Nat.div_eq_of_lt (Nat.mod_lt _ Nat.two_pos)
  · obtain ⟨t, ht, hpc, hne, hF⟩ := completes_of_flag_then_reg (i := .shl x y) (s := s) (g := (· <<< 1)) rfl
    refine ⟨t, ht, hpc, fun hx => ?_, ?_⟩
    · obtain ⟨hreg, hflag⟩ := hne hx
      exact ⟨hreg ▸ byte_shl_toNat _, hflag ▸ highBitFlag_toNat _⟩
    · rintro rfl
      have := (s.reg 0xF).isLt
      rw [hF rfl, byte_shl_toNat, highBitFlag_toNat]
      omega

end Sys2Proof.Machine
end

section
/-! Scope: the jumps and the register skips (40_flow.md, R76, R78, R80–R84), and the self jump, whose step leaves nothing to
the machine but the tick and the next input (R147). -/

namespace Sys2Proof.Machine

/-! The self jump (R78, R147). -/

/-- 1NNN completes and sets pc. -/
theorem exec_jp (nnn : Addr) (s : State) : exec (.jp nnn) s = .next (s.setPc (wordOfAddr nnn)) := rfl

/-- An address equal to pc, widened, is pc. -/
theorem wordOfAddr_eq_of_toNat {nnn : Addr} {pc : Word} (h : nnn.toNat = pc.toNat) : wordOfAddr nnn = pc :=
  BitVec.eq_of_toNat_eq ((wordOfAddr_toNat nnn).trans h)

theorem State.setPc_self (s : State) : s.setPc s.pc = s := rfl

/-- A counter at 0 stays there (R28, R29). -/
theorem countDown_of_zero {t : Byte} (h : t = 0) : countDown t = t := by
  rw [countDown, if_pos h, h]

/-- With both timers at 0 the tick changes nothing (R64). -/
theorem State.tick_of_zero {s : State} (hdt : s.dt = 0) (hst : s.st = 0) : s.tick = s := by
  rw [State.tick, countDown_of_zero hdt, countDown_of_zero hst]

/-- Settles O60: the jump leaves the state as it was, so its step is the retirement alone, and at 0 the tick is void. -/
theorem jumpToItselfOnlyTicks : Obligations.JumpToItselfOnlyTicks := by
  intro s nnn hrun hi hself
  have hstep : step s = .next s.tick.nextInput := by
    rw [step_of_nextInstr hrun hi, exec_jp, wordOfAddr_eq_of_toNat hself, State.setPc_self]
    exact endStep_of_run hrun
  exact ⟨hstep, fun hdt hst => by rw [hstep, State.tick_of_zero hdt hst]⟩

/-! The jumps (R78, R84). -/

/-- Settles O27: each jump sets pc alone, 1NNN to its operand and BNNN to a sum that fits a word. -/
theorem jumpsGoToTheirTarget : Obligations.JumpsGoToTheirTarget :=
  fun nnn s => ⟨⟨_, exec_jp nnn s, wordOfAddr_toNat nnn, State.reg_setPc s _ _⟩,
    ⟨_, rfl, wordOfAddr_add_byte_toNat nnn (s.reg 0), State.reg_setPc s _ _⟩⟩

/-! The register skips (R80–R83). -/

/-- An instruction that skips on a test of `p` adds 4 to pc when `p` holds, else 2, and keeps VF (R76). -/
theorem exec_skip_of_test {i : Instr} {s : State} {taken : Bool} {p : Prop} [Decidable p]
    (h : exec i s = .next (s.skipIf taken)) (hp : taken = true ↔ p) :
    ∃ t, exec i s = .next t ∧ t.reg 0xF = s.reg 0xF ∧ t.pc = if p then s.pc + 4 else s.pc + 2 :=
  ⟨_, h, State.reg_skipIf s taken _, by simp only [State.skipIf_pc, hp]⟩

/-- Settles O31: each skip tests its condition as a Boolean equality, or its negation. -/
theorem registerSkipsCompare : Obligations.RegisterSkipsCompare :=
  fun _ _ _ _ => ⟨exec_skip_of_test rfl beq_iff_eq, exec_skip_of_test rfl bne_iff_ne,
    exec_skip_of_test rfl beq_iff_eq, exec_skip_of_test rfl bne_iff_ne⟩

end Sys2Proof.Machine
end

section
/-! Scope: the ALU and register instructions other than the shifts (41_alu.md, R86–R92, R94, R96). One rule for the
instructions that write V[X] alone; for those with a flag, the rule of the shifts above, and from it one for two operands. -/

namespace Sys2Proof.Machine

/-! The instructions that write V[X] alone (R86–R90, R96). -/

/-- An instruction that writes one register ends with it written, and with VF as before unless VF is that register. -/
theorem completes_of_setReg {i : Instr} {s : State} {x : Nibble} {b : Byte}
    (h : exec i s = .next (s.setReg x b).advance) :
    Completes i s fun t => t.reg x = b ∧ (x ≠ 0xF → t.reg 0xF = s.reg 0xF) :=
  ⟨_, h, rfl, State.reg_setReg_self s x b, fun hx => State.reg_setReg_of_ne s b hx.symm⟩

/-- Settles O33: each is one register write. -/
theorem loadsOfConstantsCopiesAndRandomBytes : Obligations.LoadsOfConstantsCopiesAndRandomBytes :=
  fun _ _ _ _ => ⟨completes_of_setReg rfl, completes_of_setReg rfl, completes_of_setReg rfl⟩

/-- Settles O34: each is one register write, of 7XNN the byte sum, which is the sum modulo 256. -/
theorem addImmediateOrAndWithoutFlags : Obligations.AddImmediateOrAndWithoutFlags := by
  intro x y nn s
  refine ⟨?_, completes_of_setReg rfl, completes_of_setReg rfl⟩
  obtain ⟨t, ht, hpc, hsum, hflag⟩ := completes_of_setReg (i := .addImm x nn) (s := s) rfl
  exact ⟨t, ht, hpc, hsum ▸ BitVec.toNat_add _ _, hflag⟩

/-! The instructions with a flag: VF first, V[X] second (R91, R92, R94; D2, log 5). -/

theorem flagByte_decide (p : Prop) [Decidable p] : flagByte (decide p) = if p then 1 else 0 := by
  simp only [flagByte, decide_eq_true_eq]

/-- Settles O35: the sum is taken before the flag is written, so it is the same sum when an operand is VF. -/
theorem addSetsTheCarry : Obligations.AddSetsTheCarry := by
  intro x y s
  obtain ⟨t, ht, hpc, hne, hF⟩ :=
    completes_of_flag_then_reg (i := .addReg x y) (s := s) (g := fun _ => s.reg x + s.reg y) rfl
  have hsum : t.reg x = s.reg x + s.reg y := by
    by_cases hx : x = 0xF
    · subst hx
      exact hF rfl
    · exact (hne hx).1
  exact ⟨t, ht, hpc, hsum ▸ BitVec.toNat_add _ _, fun hx => (hne hx).2.trans (flagByte_decide _)⟩

/-- An instruction that writes VF, then V[X] from V[X] and V[Y] by `g`, finds the new flag where an operand is VF, and with
both VF ends at `g` of the flag with itself. -/
theorem completes_of_flag_then_binary {i : Instr} {s : State} {x y : Nibble} {f : Byte} {g : Byte → Byte → Byte}
    (h : exec i s = .next ((s.setFlag f).setReg x (g ((s.setFlag f).reg x) ((s.setFlag f).reg y))).advance)
    (hself : ∀ a, g a a = 0) :
    Completes i s fun t =>
      (x ≠ 0xF → t.reg 0xF = f) ∧
      (x ≠ 0xF → y ≠ 0xF → t.reg x = g (s.reg x) (s.reg y)) ∧
      (x = 0xF → y ≠ 0xF → t.reg 0xF = g f (s.reg y)) ∧
      (x ≠ 0xF → y = 0xF → t.reg x = g (s.reg x) f) ∧
      (x = 0xF → y = 0xF → t.reg 0xF = 0) := by
  obtain ⟨t, ht, hpc, hne, hF⟩ := completes_of_flag_then_reg (g := fun a => g a ((s.setFlag f).reg y)) h
  have hkept : y ≠ 0xF → (s.setFlag f).reg y = s.reg y := fun hy => State.reg_setReg_of_ne s f hy
  have hflag : y = 0xF → (s.setFlag f).reg y = f := fun hy => hy ▸ State.reg_setReg_self s vF f
  refine ⟨t, ht, hpc, fun hx => (hne hx).2, fun hx hy => ?_, fun hx hy => ?_, fun hx hy => ?_, fun hx hy => ?_⟩
  · rw [(hne hx).1, hkept hy]
  · rw [hF hx, hkept hy]
  · rw [(hne hx).1, hflag hy]
  · rw [hF hx, hflag hy, hself]

/-- Settles O36: the flag is the strict comparison, the second write the difference of what the first one left. -/
theorem subtractSetsTheStrictFlag : Obligations.SubtractSetsTheStrictFlag := by
  intro x y s f hf
  obtain rfl : f = greaterFlag (s.reg x) (s.reg y) := hf.trans (flagByte_decide _).symm
  exact completes_of_flag_then_binary (g := fun a b => a - b) rfl BitVec.sub_self

/-- Settles O37: as O36, with the non-strict comparison and the operands exchanged. -/
theorem reversedSubtractSetsTheNoBorrowFlag : Obligations.ReversedSubtractSetsTheNoBorrowFlag := by
  intro x y s f hf
  obtain rfl : f = noBorrowFlag (s.reg y) (s.reg x) := hf.trans (flagByte_decide _).symm
  exact completes_of_flag_then_binary (g := fun a b => b - a) rfl BitVec.sub_self

end Sys2Proof.Machine
end

section
/-! Scope: the index register and memory instructions (42_index_memory.md, R97–R103), and every fault of the execute phase
(R119, R123). One rule says which address a range that leaves memory faults at; one rule per checked operand reads the
condition and the record of a fault off the halted state. -/

namespace Sys2Proof.Machine

/-! The writes of I (R98–R100). -/

/-- I + V[X] is masked to 12 bits (R99, D13). -/
theorem addToI_toNat (i : Word) (b : Byte) : (addToI i b).toNat = (i.toNat + b.toNat) % 0x1000 := by
  rw [addToI, BitVec.toNat_ofNat]
  omega

/-- The glyph address of a whole digit fits I (R100, D14). -/
theorem glyphAddr_toNat (d : Byte) : (glyphAddr d).toNat = 0x050 + 5 * d.toNat := by
  have := d.isLt
  rw [glyphAddr, BitVec.toNat_ofNat, Config.fontBase]
  omega

/-- Settles O39: each sets I to a word whose value is the rule's. -/
theorem indexInstructionsSetTheIndex : Obligations.IndexInstructionsSetTheIndex :=
  fun x nnn s => ⟨⟨_, rfl, rfl, wordOfAddr_toNat nnn⟩, ⟨_, rfl, rfl, addToI_toNat s.iReg (s.reg x)⟩,
    ⟨_, rfl, rfl, glyphAddr_toNat (s.reg x)⟩⟩

/-! The bounds check (R97). -/

/-- The address a range that passes 0xFFF faults at is its first one out of range. -/
theorem State.firstOutOfRange_max {s : State} {count : Nat} (hc : 0 < count) (h : 0x1000 < s.iReg.toNat + count) :
    s.FirstOutOfRange count (max s.iReg.toNat 0x1000) :=
  ⟨by omega, ⟨0x1000 - s.iReg.toNat, by omega, by omega⟩, fun j _ hj => by omega⟩

/-- Settles O43: all four are checked accesses at I, which fault at the first address out of range. -/
theorem outOfRangeBlockAccessHalts : Obligations.OutOfRangeBlockAccessHalts := by
  intro s x y n i count access hi hc hout
  have hout : 0x1000 < s.iReg.toNat + count := by omega
  obtain ⟨hlow, ⟨k, hk, ha⟩, hleast⟩ := State.firstOutOfRange_max hc hout
  refine ⟨_, k, ?_, hlow, hk, ha, hleast⟩
  rcases hi with ⟨rfl, rfl, rfl⟩ | ⟨rfl, rfl, rfl⟩ | ⟨rfl, rfl, rfl⟩ | ⟨rfl, rfl, rfl⟩
  all_goals exact State.withRange_of_out _ _ hc hout

/-! FX33 (R101). -/

/-- The three bytes FX33 stores read as the hundreds, tens and ones. -/
theorem Memory.read_bcdDigits (m : Memory) (base : Nat) (b : Byte) :
    ((m.writeBytes base (bcdDigits b)).read base).toNat = b.toNat / 100 ∧
    ((m.writeBytes base (bcdDigits b)).read (base + 1)).toNat = b.toNat / 10 % 10 ∧
    ((m.writeBytes base (bcdDigits b)).read (base + 2)).toNat = b.toNat % 10 := by
  have hb := b.isLt
  have hread {k n : Nat} (hk : (bcdDigits b)[k]? = some (BitVec.ofNat 8 n)) (hn : n < 2 ^ 8) :
      ((m.writeBytes base (bcdDigits b)).read (base + k)).toNat = n := by
    rw [Memory.read_writeBytes_of_getElem? m base hk, BitVec.toNat_ofNat, Nat.mod_eq_of_lt hn]
  exact ⟨hread (k := 0) rfl (by omega), hread rfl (by omega), hread rfl (by omega)⟩

/-- Settles O40: the digits are read back from the store and recombine; out of range, the bounds check halts. -/
theorem bcdStoresTheDecimalDigits : Obligations.BcdStoresTheDecimalDigits := by
  intro x s
  refine ⟨fun hin => ?_, fun hout => ⟨_, State.withRange_of_out .write _ (Nat.succ_pos _) (by omega)⟩⟩
  obtain ⟨hundreds, tens, ones⟩ := Memory.read_bcdDigits s.mem s.iReg.toNat (s.reg x)
  refine ⟨_, exec_ldB_ok hin, rfl, hundreds, tens, ones, ?_, rfl, rfl⟩
  simp only [State.advance_mem, State.setMem_mem, hundreds, tens, ones]
  omega

/-! FX65, and FX65 after FX55 (R102, R103). -/

/-- The k-th byte of a block is read at its place. -/
theorem Memory.getElem?_readBytes (m : Memory) (base : Nat) {n k : Nat} (h : k < n) :
    (m.readBytes base n)[k]? = some (m.read (base + k)) := by
  rw [List.getElem?_eq_getElem (by simpa using h), Memory.getElem_readBytes]

/-- A block load gives V[k] the k-th byte of the block. -/
theorem State.reg_setRegsFrom_readBytes (s : State) (m : Memory) (base : Nat) {x k : Nibble} (hk : k.toNat ≤ x.toNat) :
    (s.setRegsFrom 0 (m.readBytes base (x.toNat + 1))).reg k = m.read (base + k.toNat) := by
  have hx := x.isLt
  rw [State.reg_setRegsFrom _ _ _ _ (by rw [Memory.length_readBytes]; omega), if_pos (Nat.zero_le _), Nat.sub_zero,
    Memory.getElem?_readBytes m base (Nat.lt_succ_of_le hk), Option.getD_some]

/-- Settles O42: the block load register by register, and a sum that fits I. -/
theorem loadReadsTheRegisterBlock : Obligations.LoadReadsTheRegisterBlock := by
  intro x s h
  refine ⟨_, exec_loadRegs_ok h, rfl, fun k hk => State.reg_setRegsFrom_readBytes s s.mem _ hk, ?_⟩
  show (s.iReg + x.setWidth 16 + 1).toNat = s.iReg.toNat + x.toNat + 1
  bv_omega

/-- Settles O44: what FX65 reads at I + k is what FX55 stored there, since FX55 left I alone. -/
theorem storeThenLoadRestoresTheRegisters : Obligations.StoreThenLoadRestoresTheRegisters := by
  intro x s w h
  obtain ⟨hstore, -⟩ := storeWritesTheRegisterBlock x s
  obtain ⟨t, ht, -, hmem, hI, -⟩ := hstore h
  obtain ⟨u, hu, -, hreg, -⟩ := loadReadsTheRegisterBlock x { t with v := w } (by rwa [hI])
  refine ⟨t, u, ht, hu, fun k hk => ?_⟩
  calc u.reg k
    _ = t.mem.read (t.iReg.toNat + k.toNat) := hreg k hk
    _ = s.reg k := by rw [hI, hmem k hk]

/-! The faults of the execute phase (R119, R123). -/

section Faults
variable {s t : State} {e : Fault}

/-- A halted state does not run. -/
theorem State.status_ne_run_of_halted (ht : t.status = .halted e) : t.status ≠ .run := by
  rw [ht]
  exact Status.noConfusion

/-- A checked access whose body runs on halts only where its range leaves memory, and records the first address that does. -/
theorem State.withRange_halted {u : State} {count : Nat} {access : Access}
    (h : s.withRange count access (.next u) = .next t) (hu : u.status = .run) (ht : t.status = .halted e) :
    0 < count ∧ 0xFFF < s.iReg.toNat + count - 1 ∧
      ∃ a, s.FirstOutOfRange count a ∧ e = .addressOutOfBounds a access s.pc := by
  rw [State.withRange_eq] at h
  split at h
  · cases h
    exact absurd hu (State.status_ne_run_of_halted ht)
  · next hout =>
    cases h
    cases ht
    exact ⟨by omega, by omega, _, State.firstOutOfRange_max (by omega) (by omega), rfl⟩

/-- A block load into the registers leaves the status alone. -/
theorem State.setRegsFrom_status (s : State) (k : Nat) (bs : List Byte) : (s.setRegsFrom k bs).status = s.status := by
  rw [State.setRegsFrom_eq]

/-- A key skip halts only on a value that is no key code, and records it. -/
theorem State.withKey_skipIf_halted {b : Byte} (taken : Bool → Bool) (hrun : s.status = .run)
    (h : s.withKey b (fun pressed => .next (s.skipIf (taken pressed))) = .next t) (ht : t.status = .halted e) :
    0xF < b.toNat ∧ e = .keyIndexOutOfRange b s.pc := by
  rw [State.withKey_eq] at h
  split at h
  · cases h
    exact absurd hrun (State.status_ne_run_of_halted ht)
  · next hkey =>
    cases h
    cases ht
    exact ⟨Nat.lt_of_not_le hkey, rfl⟩

/-- A call halts only on a full stack. -/
theorem exec_call_halted {nnn : Addr} (hrun : s.status = .run) (h : exec (.call nnn) s = .next t)
    (ht : t.status = .halted e) : s.sp.val = 16 ∧ e = .stackOverflow s.pc := by
  by_cases hsp : s.sp.val < 16
  · obtain rfl := exec_next_unique (exec_call_ok nnn hsp) h
    exact absurd hrun (State.status_ne_run_of_halted ht)
  · have hfull : s.sp.val = 16 := by omega
    obtain rfl := exec_next_unique (exec_call_full nnn hfull) h
    cases ht
    exact ⟨hfull, rfl⟩

/-- A return halts only on an empty stack. -/
theorem exec_ret_halted (hrun : s.status = .run) (h : exec .ret s = .next t) (ht : t.status = .halted e) :
    s.sp.val = 0 ∧ e = .stackUnderflow s.pc := by
  rcases Nat.eq_zero_or_pos s.sp.val with hempty | hsp
  · obtain rfl := exec_next_unique (exec_ret_empty hempty) h
    cases ht
    exact ⟨hempty, rfl⟩
  · obtain ⟨ret, hr⟩ := State.exists_top hsp
    obtain ⟨p, -, hp⟩ := exec_ret_ok hsp hr
    obtain rfl := exec_next_unique hp h
    exact absurd hrun (State.status_ne_run_of_halted ht)

/-- FX0A never halts the machine (R115). -/
theorem exec_ldVxK_run {x : Nibble} (hrun : s.status = .run) (h : exec (.ldVxK x) s = .next t) : t.status = .run := by
  obtain hs | ⟨b, hb⟩ := exec_ldVxK_form x s
  · obtain rfl := exec_next_unique hs h
    exact hrun
  · obtain rfl := exec_next_unique hb h
    exact hrun

end Faults

/-- Settles O13: the call, the return, the key skips and the four checked accesses, each by its rule; no other halts. -/
theorem everyFaultComesFromItsInstruction : Obligations.EveryFaultComesFromItsInstruction := by
  intro i s t e hrun h ht
  cases i
  case call nnn => exact .inl ⟨nnn, rfl, exec_call_halted hrun h ht⟩
  case ret => exact .inr (.inl ⟨rfl, exec_ret_halted hrun h ht⟩)
  case skp x => exact .inr (.inr (.inl ⟨x, .inl rfl, State.withKey_skipIf_halted id hrun h ht⟩))
  case sknp x => exact .inr (.inr (.inl ⟨x, .inr rfl, State.withKey_skipIf_halted not hrun h ht⟩))
  case ldB x =>
    obtain ⟨-, hfault⟩ := State.withRange_halted h hrun ht
    exact .inr (.inr (.inr (.inl ⟨x, rfl, hfault⟩)))
  case storeRegs x =>
    obtain ⟨-, hfault⟩ := State.withRange_halted h hrun ht
    exact .inr (.inr (.inr (.inr (.inl ⟨x, rfl, hfault⟩))))
  case loadRegs x =>
    obtain ⟨-, hfault⟩ := State.withRange_halted h ((State.setRegsFrom_status s 0 _).trans hrun) ht
    exact .inr (.inr (.inr (.inr (.inr (.inl ⟨x, rfl, hfault⟩)))))
  case drw x y n =>
    exact .inr (.inr (.inr (.inr (.inr (.inr ⟨x, y, n, rfl, State.withRange_halted h hrun ht⟩)))))
  case ldVxK x => exact absurd (exec_ldVxK_run hrun h) (State.status_ne_run_of_halted ht)
  all_goals
    cases h
    exact absurd hrun (State.status_ne_run_of_halted ht)

end Sys2Proof.Machine
end

section
/-! Scope: the display instructions (43_display.md, R104–R110). One draw is the toggling of distinct pixels; drawing twice is
two draws of the same sprite, because a draw leaves the operands of the next one alone. -/

namespace Sys2Proof.Machine

/-- Settles O47: the display is the blank one, whatever it was. -/
theorem clearTurnsEveryPixelOff : Obligations.ClearTurnsEveryPixelOff :=
  fun _ => ⟨_, rfl, rfl, Display.pixel_blank, rfl, rfl⟩

/-! DXYN (R105–R110). -/

theorem flagByte_eq_one {b : Bool} : flagByte b = 1 ↔ b = true := by cases b <;> decide

theorem flagByte_eq_one_or_zero (b : Bool) : flagByte b = 1 ∨ flagByte b = 0 := by cases b <;> decide

/-- The display a draw at `s` leaves, and whether it collided (R106, R108). -/
def State.drawn (s : State) (x y : Nibble) (n : Nat) : Display × Bool :=
  drawHits (spriteHits (s.reg x).toNat (s.reg y).toNat (s.mem.readBytes s.iReg.toNat n)) (s.disp, false)

/-- What DXYN does to each part the display statements speak of. -/
theorem exec_drw_drawn {s : State} {x y : Nibble} {n : Nat} (h : n = 0 ∨ s.iReg.toNat + n - 1 ≤ 0xFFF) :
    ∃ t, exec (.drw x y n) s = .next t ∧ t.pc = s.pc + 2 ∧ t.status = s.status ∧ t.disp = (s.drawn x y n).1 ∧
      t.reg 0xF = flagByte (s.drawn x y n).2 ∧ t.redraw = true :=
  ⟨_, exec_drw_ok h, rfl, rfl, rfl, State.reg_setReg_self s vF _, rfl⟩

/-- The sprite touches no pixel twice (R109), so each of its pixels is toggled once and tested as `s` has it. -/
theorem State.drawn_spec (s : State) (x y : Nibble) {n : Nat} (hn : n ≤ 15) :
    (∀ px py, s.spriteAt x y n px py → (s.drawn x y n).1.pixel px py = !(s.disp.pixel px py)) ∧
    (∀ px py, ¬ s.spriteAt x y n px py → (s.drawn x y n).1.pixel px py = s.disp.pixel px py) ∧
    ((s.drawn x y n).2 = true ↔ ∃ px py, s.spriteAt x y n px py ∧ s.disp.pixel px py = true) := by
  have hnodup := nodup_spriteHits (s.reg x).toNat (s.reg y).toNat (s.mem.readBytes s.iReg.toNat n)
    (by rw [Memory.length_readBytes]; omega)
  obtain ⟨hpixel, hcollision⟩ := drawHits_spec _ hnodup (s.disp, false)
  have hmem := mem_spriteHits_iff_spriteAt s x y n
  refine ⟨fun px py hc => ?toggled, fun px py hc => ?kept, hcollision.trans ?collision⟩
  case toggled => rw [State.drawn, hpixel, decide_eq_true ((hmem px py).2 hc), Bool.xor_true]
  case kept => rw [State.drawn, hpixel, decide_eq_false (mt (hmem px py).1 hc), Bool.xor_false]
  case collision => simp only [Bool.false_eq_true, false_or, Prod.exists, hmem]

/-- Settles O48: the instruction leaves what was drawn, with the collision as its flag. -/
theorem drawXorsTheSpriteAndDetectsCollision : Obligations.DrawXorsTheSpriteAndDetectsCollision := by
  intro x y n s hn hrange
  obtain ⟨t, ht, hpc, -, hdisp, hflag, hredraw⟩ := exec_drw_drawn (x := x) (y := y) hrange
  obtain ⟨htoggled, hkept, hcollision⟩ := s.drawn_spec x y hn
  refine ⟨t, ht, hpc, ?_⟩
  simp only [hdisp, hflag]
  exact ⟨htoggled, hkept, flagByte_eq_one_or_zero _, flagByte_eq_one.trans hcollision, hredraw⟩

/-- A draw whose operands are not VF leaves the sprite and its position as they were. -/
theorem spriteAt_eq_of_exec_drw {x y : Nibble} {n : Nat} {s t : State} (hx : x ≠ 0xF) (hy : y ≠ 0xF)
    (hs : t.status = s.status) (h : exec (.drw x y n) s = .next t) :
    t.iReg = s.iReg ∧ t.spriteAt x y n = s.spriteAt x y n := by
  obtain ⟨-, -, hframe⟩ := frameOfBlockLoadAndDisplay x y n _ s t hs h
  obtain ⟨hregs, hkeeps⟩ := hframe rfl
  have hI : t.iReg = s.iReg := hkeeps.index (by decide)
  have hread : t.mem.read = s.mem.read := funext (hkeeps.memory (by decide))
  refine ⟨hI, ?_⟩
  unfold State.spriteAt
  rw [hregs x hx, hregs y hy, hI, hread]

/-- Settles O49: both draws toggle the same pixels, and a pixel the second one finds on is one the first one found off. -/
theorem drawingTwiceRestoresTheDisplay : Obligations.DrawingTwiceRestoresTheDisplay := by
  intro x y n s hx hy hn hrange
  obtain ⟨t, ht, -, hstatus, hdisp, -⟩ := exec_drw_drawn (x := x) (y := y) hrange
  obtain ⟨htoggled, hkept, -⟩ := s.drawn_spec x y hn
  rw [← hdisp] at htoggled hkept
  obtain ⟨hI, hsprite⟩ := spriteAt_eq_of_exec_drw hx hy hstatus ht
  obtain ⟨u, hu, -, htoggled', hkept', -, hflag, -⟩ :=
    drawXorsTheSpriteAndDetectsCollision x y n t hn (by rwa [hI])
  rw [hsprite] at htoggled' hkept' hflag
  refine ⟨t, u, ht, hu, Display.ext_pixel fun px py => ?_, hflag.trans ?_⟩
  · by_cases hc : s.spriteAt x y n px py
    · rw [htoggled' px py hc, htoggled px py hc, Bool.not_not]
    · rw [hkept' px py hc, hkept px py hc]
  · refine exists_congr fun px => exists_congr fun py => and_congr_right fun hc => ?_
    rw [htoggled px py hc, Bool.not_eq_true']

end Sys2Proof.Machine
end

section
/-! Scope: the key and timer instructions (44_timers_input.md, R111–R117). A key skip on an operand above 0xF halts
whichever way it tests the key, and FX0A has one equation for each answer of the search for the lowest pressed key. -/

namespace Sys2Proof.Machine

/-! The key skips (R111–R113). -/

/-- A key skip whose operand is no key code halts the machine, whichever way it tests the key (R111, D7). -/
theorem State.withKey_skipIf_of_out (s : State) {b : Byte} (taken : Bool → Bool) (h : 0xF < b.toNat) :
    s.withKey b (fun pressed => .next (s.skipIf (taken pressed))) =
      .next { s with status := .halted (.keyIndexOutOfRange b s.pc) } := by
  rw [State.withKey_eq, if_neg (Nat.not_le_of_lt h)]

/-- Settles O32: on a key code each skip tests the key's bit, or its negation; above 0xF, the check of the operand halts. -/
theorem keySkipsTestTheSnapshot : Obligations.KeySkipsTestTheSnapshot := by
  intro x s
  refine ⟨fun hkey => ⟨?pressed, ?released⟩, fun hout =>
    ⟨State.withKey_skipIf_of_out s id hout, State.withKey_skipIf_of_out s not hout⟩⟩
  case pressed => exact ⟨_, exec_skp_ok hkey, State.skipIf_pc s _⟩
  case released =>
    obtain ⟨t, ht, -, hpc⟩ := exec_skip_of_test (exec_sknp_ok hkey) (Bool.not_eq_true' _).to_iff
    exact ⟨t, ht, hpc⟩

/-! The timers (R114, R116, R117). -/

/-- Settles O50: FX07 is a register write of DT, FX15 and FX18 set DT and ST to a register; the tick is not part of execute. -/
theorem timerInstructionsMoveTheTimers : Obligations.TimerInstructionsMoveTheTimers :=
  fun x s => ⟨⟨_, rfl, rfl, State.reg_setReg_self s x s.dt⟩, ⟨_, rfl, rfl, rfl⟩, ⟨_, rfl, rfl, rfl⟩⟩

/-! The key wait (R115). -/

/-- With no key pressed FX0A changes nothing. -/
theorem exec_ldVxK_of_none {s : State} (x : Nibble) (h : lowestKey s.keys = none) : exec (.ldVxK x) s = .next s := by
  simp only [exec, execLdVxK, h]

/-- FX0A writes the lowest pressed key into V[X] and goes on. -/
theorem exec_ldVxK_of_some {s : State} (x : Nibble) {k : Nat} (h : lowestKey s.keys = some k) :
    exec (.ldVxK x) s = .next (s.setReg x (BitVec.ofNat 8 k)).advance := by
  simp only [exec, execLdVxK, h]

/-- Settles O51: no key is pressed exactly when the search finds none, the key it finds is the lowest, and its code fits a
byte. -/
theorem keyWaitTakesTheLowestKey : Obligations.KeyWaitTakesTheLowestKey := by
  intro x s
  refine ⟨fun hnone => exec_ldVxK_of_none x (lowestKey_eq_none.2 hnone), fun k hk hpressed hlower => ?_⟩
  have hlowest := lowestKey_eq_some.2 ⟨hk, hpressed, hlower⟩
  obtain ⟨t, ht, hpc, hcode, -⟩ := completes_of_setReg (exec_ldVxK_of_some x hlowest)
  have hfits : (BitVec.ofNat 8 k).toNat = k := Nat.mod_eq_of_lt (by omega)
  exact ⟨t, ht, hpc, (congrArg BitVec.toNat hcode).trans hfits⟩

end Sys2Proof.Machine
end

section
/-! Scope: the faulting step and the program load (60_exceptions.md, R121, R132, R137). A step that ends halted took the
halting branch of its inversion; `loadProgram` has one equation for each of its three answers. -/

namespace Sys2Proof.Machine

/-- Settles O11: a step that ends halted raised its error, which changes the status only; one that executed its
instruction to the end still runs. -/
theorem faultingStepCommitsNothing : Obligations.FaultingStepCommitsNothing := by
  intro s t e h ht
  obtain ⟨-, ⟨e', -, rfl⟩ | ⟨i, u, -, -, hur, rfl⟩⟩ := step_cases h
  · cases ht
    rfl
  · exact absurd ((State.retire_status u).trans hur) (State.status_ne_run_of_halted ht)

/-! The program load (R132, R137). -/

/-- The state a successful load answers: the bytes from 0x200 on, and status Run. -/
def State.withProgram (s : State) (bytes : List Byte) : State :=
  { s.setMem (s.mem.writeBytes Config.programBase bytes) with status := .run }

theorem State.loadProgram_of_fits {s : State} {bytes : List Byte} (hinit : s.status = .init)
    (hfits : bytes.length ≤ 3584) : s.loadProgram bytes = .next (s.withProgram bytes) := by
  rw [State.loadProgram, hinit]
  exact if_neg (Nat.not_lt_of_le hfits)

theorem State.loadProgram_of_tooLong {s : State} {bytes : List Byte} (hinit : s.status = .init)
    (hlong : 3584 < bytes.length) : s.loadProgram bytes = .fault (.malformedRom bytes.length) := by
  rw [State.loadProgram, hinit]
  exact if_pos hlong

theorem State.loadProgram_of_not_init {s : State} (bytes : List Byte) (hs : s.status ≠ .init) :
    s.loadProgram bytes = .refused .loadOutOfOrder := by
  unfold State.loadProgram
  cases hstatus : s.status with
  | init => exact absurd hstatus hs
  | uninit => rfl
  | run => rfl
  | halted e => rfl

/-- Setting the status keeps every other part. -/
theorem KeepsBut.thenSetStatus {parts : List Part} {s t : State} (h : KeepsBut parts s t) (hp : .status ∈ parts)
    (status : Status) : KeepsBut parts s { t with status := status } :=
  { h with status := fun hn => absurd hp hn }

/-- Settles O59: the equation of each answer; a load is one block store and a change of status. -/
theorem loadProgramPlacesTheBytes : Obligations.LoadProgramPlacesTheBytes := by
  intro s bytes
  refine ⟨fun hinit hfits => ⟨_, State.loadProgram_of_fits hinit hfits, rfl, ?placed, ?others, ?parts⟩,
    State.loadProgram_of_tooLong, State.loadProgram_of_not_init bytes⟩
  case placed => exact fun j b hb => Memory.read_writeBytes_of_getElem? s.mem Config.programBase hb
  case others => exact fun a ha => Memory.read_writeBytes_outside s.mem ha
  case parts => exact ((KeepsBut.refl _ s).thenSetMem (by decide) _).thenSetStatus (by decide) .run

end Sys2Proof.Machine
end

section
/-! Scope: the invariant across a program load (70_reset_and_hazards.md, R137, R138). A load that answers a next state is
the one from status Init whose bytes fit; it stores one block that ends within memory and sets status Run. -/

namespace Sys2Proof.Machine

/-- A load that answers a next state was made in Init with bytes that fit, and answers the loaded state (R132, R137). -/
theorem State.loadProgram_next {s t : State} {bytes : List Byte} (h : s.loadProgram bytes = .next t) :
    s.status = .init ∧ bytes.length ≤ 3584 ∧ t = s.withProgram bytes := by
  by_cases hinit : s.status = .init
  · rcases Nat.lt_or_ge 3584 bytes.length with hlong | hfits
    · rw [State.loadProgram_of_tooLong hinit hlong] at h
      cases h
    · rw [State.loadProgram_of_fits hinit hfits] at h
      cases h
      exact ⟨hinit, hfits, rfl⟩
  · rw [State.loadProgram_of_not_init bytes hinit] at h
    cases h

/-- A program that fits ends at 0xFFF or below, so loading it keeps the invariant. -/
theorem Inv.withProgram {s : State} {bytes : List Byte} (hs : Inv s) (hfits : bytes.length ≤ 3584) :
    Inv (s.withProgram bytes) where
  memCanonical := Memory.wf_writeBytes Config.programBase bytes hs.memCanonical
  memInRange c hc := by
    rcases Memory.mem_writeBytes hc with hin | hin
    · simp only [Config.programBase] at hin
      simp only [Config.memTop]
      omega
    · exact hs.memInRange c hin
  indexInRange := hs.indexInRange
  pcInRange := hs.pcInRange
  stackInRange := hs.stackInRange
  haltedByStep _ := Status.noConfusion

/-- Settles O17: a load that answers a next state is one whose bytes fit. -/
theorem loadProgramKeepsTheInvariant : Obligations.LoadProgramKeepsTheInvariant := by
  intro s t bytes hs h
  obtain ⟨-, hfits, rfl⟩ := State.loadProgram_next h
  exact hs.withProgram hfits

end Sys2Proof.Machine
end
